-- ==== Sys2Proof/Word.lean ====
section
/-! DEFINITION. The fixed-width values of FC16 (spec/00_scope.md R5 to R7, spec/30_encoding.md R60):
HalfWord, Block, the 32-bit result word, the 40-bit command word, and the two fixed-length sequences. -/

namespace Sys2Proof

/-- R6: a 16-bit unsigned integer; bit 15 is the most significant. -/
abbrev HalfWord := BitVec 16

/-- A four-bit field: an opcode, a trajectory index, a rotation amount 0 to 15 (R5, R9, R60). -/
abbrev Nibble := BitVec 4

/-- The 32-bit result field `Y` of a response, and the width of `STATUS` (R28, R61). -/
abbrev Word := BitVec 32

/-- The 40-bit command word `CW` (R60). -/
abbrev CommandWord := BitVec 40

/-- R7: an ordered pair of HalfWords. -/
structure Block where
  left  : HalfWord
  right : HalfWord
deriving DecidableEq, Repr, Inhabited

/-- R5, R21: an ordered sequence of exactly ten HalfWords, indexed by round index. -/
abbrev KeySchedule := Vector HalfWord 10

/-- R5, R24: an ordered sequence of exactly eleven Blocks, plaintext first, ciphertext last. -/
abbrev Trajectory := Vector Block 11

end Sys2Proof
end

