-- ==== Sys2Proof/Syntax.lean ====
section
/-! DEFINITION. The nine commands of FC16 with their operands (spec/30_encoding.md R63 to R65). -/

namespace Sys2Proof

/-- One constructor per row of spec/opcode_table.json. Every operand is used as it stands in its field
(R64), so its type is the field's width. -/
inductive Instr where
  /-- XOR a, b (R81) -/
  | xor (a b : HalfWord)
  /-- ADD a, b (R82) -/
  | add (a b : HalfWord)
  /-- ROL a, n: the amount is the whole 16-bit field `B` (R64, R83) -/
  | rol (a n : HalfWord)
  /-- POPC a (R84) -/
  | popc (a : HalfWord)
  /-- KPUSH v (R90) -/
  | kpush (v : HalfWord)
  /-- KSEAL (R91) -/
  | kseal
  /-- ENC l, r: the plaintext Block is `(l, r)` (R103) -/
  | enc (l r : HalfWord)
  /-- RDT i: the 4-bit field `IDX`, 0 to 15 (R105) -/
  | rdt (i : Nibble)
  /-- RDS (R120) -/
  | rds
deriving DecidableEq, Repr

end Sys2Proof
end

