-- ==== Sys2Proof/WellFormed.lean ====
section
/-! DEFINITION. Well-formedness. A term of `Instr` cannot be ill formed: R165, a value of the wrong width
cannot be presented. What can be ill formed is a command word, and R66 lists how. The decoder
(Sys2Proof/Decode.lean) does not use these definitions: it follows the match and mask columns of R65. -/

namespace Sys2Proof

/-- R165: the fixed field widths are the operand types, so every term is well formed. -/
def Instr.wellFormed (_ : Instr) : Bool := true

/-- R66 (a): the seven reserved opcodes. -/
def reservedOpcodes : List Nibble := [0x0, 0x5, 0x6, 0x7, 0xD, 0xE, 0xF]

/-- R66 (a): the word's opcode, bits 39:36, is not reserved. -/
def opcodeAssigned (w : CommandWord) : Bool := !reservedOpcodes.contains (w.extractLsb' 36 4)

/-- R66 (b): `IDX`, bits 35:32, is zero for any command but RDT. -/
def idxFieldFree (w : CommandWord) : Bool :=
  w.extractLsb' 32 4 == 0 || w.extractLsb' 36 4 == 0xB

/-- R66 (b): `A`, bits 31:16, is zero for KSEAL, RDS and RDT. -/
def aFieldFree (w : CommandWord) : Bool :=
  w.extractLsb' 16 16 == 0 || !([0x9, 0xB, 0xC] : List Nibble).contains (w.extractLsb' 36 4)

/-- R66 (b): `B`, bits 15:0, is zero for POPC, KPUSH, KSEAL, RDS and RDT. -/
def bFieldFree (w : CommandWord) : Bool :=
  w.extractLsb' 0 16 == 0 || !([0x4, 0x8, 0x9, 0xB, 0xC] : List Nibble).contains (w.extractLsb' 36 4)

/-- R66: the word is not illegal. -/
def wellFormedWord (w : CommandWord) : Bool :=
  opcodeAssigned w && idxFieldFree w && aFieldFree w && bFieldFree w

end Sys2Proof
end

