-- ==== Sys2Proof/Decode.lean ====
section
/-! DEFINITION. Decoding, total on all 2^40 words, then encoding (spec/30_encoding.md R60, R63, R65, R69). -/

namespace Sys2Proof

/-! ## Fields of the command word (R60) -/

def opField (w : CommandWord) : Nibble := w.extractLsb' 36 4
def idxField (w : CommandWord) : Nibble := w.extractLsb' 32 4
def aField (w : CommandWord) : HalfWord := w.extractLsb' 16 16
def bField (w : CommandWord) : HalfWord := w.extractLsb' 0 16

/-! ## The opcode map (R65) -/

/-- One row of R65: opcode, match, mask, and the command's operands taken from their fields (R63, R64). -/
structure Row where
  op       : Nibble
  pattern  : CommandWord
  mask     : CommandWord
  operands : CommandWord → Instr

/-- R65, in its order. -/
def rows : List Row :=
  [ ⟨0x1, 0x1000000000, 0xFF00000000, fun w => .xor (aField w) (bField w)⟩,
    ⟨0x2, 0x2000000000, 0xFF00000000, fun w => .add (aField w) (bField w)⟩,
    ⟨0x3, 0x3000000000, 0xFF00000000, fun w => .rol (aField w) (bField w)⟩,
    ⟨0x4, 0x4000000000, 0xFF0000FFFF, fun w => .popc (aField w)⟩,
    ⟨0x8, 0x8000000000, 0xFF0000FFFF, fun w => .kpush (aField w)⟩,
    ⟨0x9, 0x9000000000, 0xFFFFFFFFFF, fun _ => .kseal⟩,
    ⟨0xA, 0xA000000000, 0xFF00000000, fun w => .enc (aField w) (bField w)⟩,
    ⟨0xB, 0xB000000000, 0xF0FFFFFFFF, fun w => .rdt (idxField w)⟩,
    ⟨0xC, 0xC000000000, 0xFFFFFFFFFF, fun _ => .rds⟩ ]

/-- Why a word is illegal: the two ways of R66. -/
inductive Illegal where
  /-- R66 (a): no row has this opcode. Raised by `decode`; the machine then takes ILLCMD. -/
  | reservedOpcode
  /-- R66 (b): the opcode's row reserves a field that is not zero. Raised by `decode`; ILLCMD. -/
  | reservedField
deriving DecidableEq, Repr

/-- R69: look up the row by `OP`, then test `w AND mask = match`. Reads no state. -/
def decode (w : CommandWord) : Except Illegal Instr :=
  match rows.find? (fun r => r.op == opField w) with
  | none => .error .reservedOpcode
  | some r => if w &&& r.mask = r.pattern then .ok (r.operands w) else .error .reservedField

/-! ## Encoding (R60, R63) -/

/-- R60: `CW = OP * 2^36 + IDX * 2^32 + A * 2^16 + B`. -/
def assembleFields (op idx : Nibble) (a b : HalfWord) : CommandWord :=
  BitVec.ofNat 40 (op.toNat * 2 ^ 36 + idx.toNat * 2 ^ 32 + a.toNat * 2 ^ 16 + b.toNat)

/-- The command word of a command: its opcode (R65) and operands in the fields of its format (R63), every
other field zero. -/
def encode : Instr → CommandWord
  | .xor a b => assembleFields 0x1 0 a b
  | .add a b => assembleFields 0x2 0 a b
  | .rol a n => assembleFields 0x3 0 a n
  | .popc a  => assembleFields 0x4 0 a 0
  | .kpush v => assembleFields 0x8 0 v 0
  | .kseal   => assembleFields 0x9 0 0 0
  | .enc l r => assembleFields 0xA 0 l r
  | .rdt i   => assembleFields 0xB i 0 0
  | .rds     => assembleFields 0xC 0 0 0

/-! ## The opcode table's numbering -/

/-- The command word whose low `nbits` bits are those of `w` and whose other bits are zero. The table
numbers the 40 bits as R60 does: bit 39 first, bit 0 least significant. -/
def tableWord (nbits w : Nat) : CommandWord := BitVec.ofNat 40 (w % 2 ^ nbits)

/-- What the decoder reads from a word given in the opcode table's numbering. -/
def decodeTableWord (nbits w : Nat) : Option Instr :=
  match decode (tableWord nbits w) with
  | .ok i => some i
  | .error _ => none

end Sys2Proof
end

