-- ==== Sys2Proof/Config.lean ====
section
/-! DEFINITION. The values the spec leaves open, as constants without a body
(spec/93_implementation_defined.md U1, U2: "any value"). Every architectural parameter of R5 is fixed
and stands in the types. Log entries 2 and 3. -/

namespace Sys2Proof

/-- U1: what a key-store entry that holds no value would supply to a round. Free value, never read in
a state that a run from reset reaches: ENC requires `SEALED = 1`, hence all ten entries written (R21, R23). -/
opaque Config.unwrittenKey : Nat → HalfWord

/-- U2: what the trajectory store would supply while it holds no trajectory. Free value, never read in
a state that a run from reset reaches: RDT raises TRAJLEN while `TV = 0` (R25, R105). -/
opaque Config.unwrittenBlock : Nat → Block

end Sys2Proof
end

