-- ==== Sys2Proof/Machine/State.lean ====
section
/-! DEFINITION. The state of one FC16 instance (spec/10_state.md R20), with the two queues of its
interface (spec/30_encoding.md R62, spec/70_reset_and_hazards.md R179, R180), and the state after reset
(R33, R170). -/

namespace Sys2Proof.Machine

/-- R152: the fault cause codes. -/
inductive Cause where
  /-- code 0: no fault since reset -/
  | none
  /-- code 1 KEYLEN: key schedule length mismatch (KPUSH, KSEAL, ENC) -/
  | keyLen
  /-- code 2 ROTAMT: rotation amount out of range (ROL) -/
  | rotAmt
  /-- code 3 TRAJLEN: trajectory length mismatch (RDT) -/
  | trajLen
  /-- code 4 KEYIMM: the key schedule is immutable (KPUSH, KSEAL) -/
  | keyImm
  /-- code 5 ILLCMD: illegal command word -/
  | illCmd
deriving DecidableEq, Repr

/-- R61: a response, the bit `FLT` and the 32-bit result `Y`. -/
structure Response where
  flt : Bool
  y   : Word
deriving DecidableEq, Repr

/-- R180: what the host can do to the block. -/
inductive HostAction where
  /-- issue a command word at port `cmd` (R62) -/
  | issue (w : CommandWord)
  /-- assert port `rst` (R170) -/
  | reset
deriving DecidableEq, Repr

/-- R20: the seven elements, and the model's two records of the interface. -/
structure State where
  /-- `K[0..9]` (R21); an entry that KPUSH has not written since reset holds no value (R33) -/
  k         : Vector (Option HalfWord) 10
  /-- `KN` (R22): number of key entries loaded, 0 to 10 -/
  kn        : Fin 11
  /-- `SEALED` (R23) -/
  sealed    : Bool
  /-- `T[0..10]` (R24); holds no value until an ENC succeeds (R25, R33) -/
  t         : Option Trajectory
  /-- `TV` (R25) -/
  tv        : Bool
  /-- `F` (R26): the sticky fault latch; port `fault_o` is a copy of it (R62, R159) -/
  f         : Bool
  /-- `CAUSE` (R27) -/
  cause     : Cause
  /-- the host's actions not yet taken, next one first (R13, R179); the model's own field -/
  pending   : List HostAction
  /-- the responses given so far, oldest first (R61, R179); the model's own field -/
  responses : List Response
deriving DecidableEq, Repr

/-- No step of FC16 stops with a fault: every fault cause of R152 is a next state with `F` and `CAUSE`
written (R153), and every word either performs a command or faults so (R67, R182). The type has no
constructor; nothing raises it. -/
inductive Fault where
deriving DecidableEq, Repr

/-- Why a step has no meaning. -/
inductive Refusal where
  /-- Raised only by an arm of `exec` whose command has no meaning yet; no arm of this model does. Safe:
  the machine stops where the hardware goes on. -/
  | notModelled (mnemonic : String)
deriving DecidableEq, Repr

/-- R33, R170: the state right after reset, phase LOAD, nothing asked and nothing answered. -/
def State.reset : State where
  k         := Vector.replicate 10 .none
  kn        := 0
  sealed    := false
  t         := .none
  tv        := false
  f         := false
  cause     := .none
  pending   := []
  responses := []

end Sys2Proof.Machine
end

