-- ==== Sys2Proof/Machine/Operands.lean ====
section
/-! DEFINITION. HalfWord and Block primitives and the operand forms of the commands
(spec/00_scope.md R6 to R11, spec/30_encoding.md R61, R64). -/

namespace Sys2Proof.Machine

/-! ## HalfWord primitives (R8 to R10) -/

/-- R8: bit i of the result is `a[i] XOR b[i]`. -/
def xor16 (a b : HalfWord) : HalfWord := a ^^^ b

/-- R8: `(a + b) mod 2^16`. -/
def add16 (a b : HalfWord) : HalfWord := a + b

/-- R8: `(a - b) mod 2^16`; no command computes it (R87). -/
def sub16 (a b : HalfWord) : HalfWord := a - b

/-- R9: rotate left by 0 to 15, toward the more significant bit. Not defined for larger amounts, which
the type excludes. The direction is PRESUMED by the spec itself (spec/93_implementation_defined.md U9); unsafe, log
entry 6. -/
def rotl16 (a : HalfWord) (s : Nibble) : HalfWord :=
  if s = 0 then a
  else BitVec.ofNat 16 (a.toNat * 2 ^ s.toNat % 2 ^ 16 + a.toNat / 2 ^ (16 - s.toNat))

/-- R10: `a[0] + a[1] + ... + a[15]`. -/
def popcount16 (a : HalfWord) : Nat :=
  ((List.range 16).map fun i => (a.getLsbD i).toNat).sum

/-- R6: the HalfWord `2^j`, only bit j set. -/
def e16 (j : Nibble) : HalfWord := BitVec.ofNat 16 (2 ^ j.toNat)

/-! ## Block operations (R7, R11) -/

/-- R7: `pack(B) = B.left * 2^16 + B.right`: left in bits 31:16, right in bits 15:0. -/
def pack (b : Block) : Word := BitVec.ofNat 32 (b.left.toNat * 2 ^ 16 + b.right.toNat)

/-- R7: the inverse of `pack`. -/
def unpack (y : Word) : Block := ⟨y.extractLsb' 16 16, y.extractLsb' 0 16⟩

/-- R11: XOR of Blocks, pairwise. -/
def bxor (b c : Block) : Block := ⟨xor16 b.left c.left, xor16 b.right c.right⟩

/-- R11: equality of Blocks, pairwise; a comparison the host makes. -/
def beqBlock (b c : Block) : Bool := b.left == c.left && b.right == c.right

/-! ## Operand and result forms (R61, R64) -/

/-- R12, R61: a HalfWord result in `Y[15:0]`, `Y[31:16] = 0`. -/
def zext32 (v : HalfWord) : Word := v.setWidth 32

/-- R84: the count as a HalfWord. -/
def countHalf (a : HalfWord) : HalfWord := BitVec.ofNat 16 (popcount16 a)

/-- R64, R83: ROL's amount is the whole field `B`, compared against 15 before use and never masked. -/
def rotAmount (b : HalfWord) : Option Nibble := if 15 < b then .none else .some (b.setWidth 4)

/-- R102: the rotation amount inside a round, bits 3:0. -/
def lowNibble (v : HalfWord) : Nibble := v.extractLsb' 0 4

end Sys2Proof.Machine
end

