-- ==== Sys2Proof/Machine/Flags.lean ====
section
/-! DEFINITION. FC16 has no arithmetic flags (spec/10_state.md R31). What it has is the read-only status
word over its bookkeeping elements (R28), the copy of `F` at a port (R62), and the phase they determine
(spec/60_exceptions.md R162). -/

namespace Sys2Proof.Machine

/-- R152: the code of a cause, the 4 bits of `CAUSE` (R27). -/
def causeCode : Cause → Nibble
  | .none    => 0
  | .keyLen  => 1
  | .rotAmt  => 2
  | .trajLen => 3
  | .keyImm  => 4
  | .illCmd  => 5

/-- R28: `STATUS = SEALED + 2*TV + 4*F + 16*KN + 256*CAUSE`. -/
def statusWord (s : State) : Word :=
  BitVec.ofNat 32 (s.sealed.toNat + 2 * s.tv.toNat + 4 * s.f.toNat + 16 * s.kn.val
    + 256 * (causeCode s.cause).toNat)

/-- R62, R159: the output `fault_o` is a level copy of `F`. -/
def faultO (s : State) : Bool := s.f

/-- R62: the response word at port `rsp`, `FLT` in bit 32 and `Y` in bits 31:0 (R61). -/
def responseWord (r : Response) : BitVec 33 := BitVec.ofNat 33 (r.flt.toNat * 2 ^ 32 + r.y.toNat)

/-- R162: the three life-cycle phases. -/
inductive Phase where
  | load
  | sealed
  | faulted
deriving DecidableEq, Repr

/-- R162: LOAD (`F = 0`, `SEALED = 0`), SEALED (`F = 0`, `SEALED = 1`), FAULTED (`F = 1`). -/
def phase (s : State) : Phase :=
  if s.f then .faulted else if s.sealed then .sealed else .load

end Sys2Proof.Machine
end

