-- ==== Sys2Proof/Machine/Ops.lean ====
section
/-! DEFINITION. The shared operations: answering a command (spec/00_scope.md R12), taking a fault and the
faulted state (spec/60_exceptions.md R153, R154), the one way out of it (R156, R170), and the two stores
(spec/20_memory.md R41, R42). -/

namespace Sys2Proof.Machine

/-- How a command ends. -/
abbrev Result := Host.Outcome State Fault Refusal

/-- R61: every command gives exactly one response. -/
def State.answer (s : State) (flt : Bool) (y : Word) : State :=
  { s with responses := s.responses ++ [⟨flt, y⟩] }

/-- R12 `respond(y)`: the command completes without fault. -/
def respond (y : Word) (s : State) : Result := .next (s.answer false y)

/-- R153 `raise Fault(c)`: `F` and `CAUSE` are written, the response is FLT = 1, Y = 0, nothing else changes. -/
def raiseFault (c : Cause) (s : State) : Result := .next ({ s with f := true, cause := c }.answer true 0)

/-- R154: a refused word is answered FLT = 1, Y = 0 and no state changes. -/
def refuse (s : State) : Result := .next (s.answer true 0)

/-- R80, R154, R157 check 1: every command but a well-formed RDS is refused while `F = 1`. -/
def unlessFaulted (s : State) (body : Result) : Result := if s.f then refuse s else body

/-- R170, R156: reset gives the state of R33 and no response; it is the only way out of the faulted state.
What the host has still to do and what it has been told are the host's and stay. -/
def applyReset (s : State) : State :=
  { State.reset with pending := s.pending, responses := s.responses }

/-! ## The key store (R40, R41) -/

/-- R41 `MemWrite(K, i, v)`, for `i` 0 to 9. No entry has another index. -/
def memWriteK (k : Vector (Option HalfWord) 10) (i : Nat) (v : HalfWord) :
    Vector (Option HalfWord) 10 :=
  k.setIfInBounds i (.some v)

/-- The read ENC makes of `K[i]` inside the block (R41). An entry that holds no value supplies a free value
(log entry 2). -/
def memReadK (k : Vector (Option HalfWord) 10) (i : Fin 10) : HalfWord :=
  k[i].getD (Config.unwrittenKey i.val)

/-- The ten keys a round sequence uses. -/
def schedule (s : State) : KeySchedule := Vector.ofFn (memReadK s.k)

/-! ## The trajectory store (R40, R42) -/

/-- R42 `MemRead(T, i)`, for `i` 0 to 10 and `TV = 1`. A store that holds no trajectory supplies a free
value (log entry 3). -/
def memReadT (t : Option Trajectory) (i : Nat) : Block :=
  (t.bind (·[i]?)).getD (Config.unwrittenBlock i)

end Sys2Proof.Machine
end

