-- ==== Sys2Proof/Machine/Alu.lean ====
section
/-! DEFINITION. The HalfWord ALU commands XOR, ADD, ROL, POPC (spec/40_alu.md R80 to R84). -/

namespace Sys2Proof.Machine

/-- R81 -/
def execXor (a b : HalfWord) (s : State) : Result :=
  unlessFaulted s (respond (zext32 (xor16 a b)) s)

/-- R82 -/
def execAdd (a b : HalfWord) (s : State) : Result :=
  unlessFaulted s (respond (zext32 (add16 a b)) s)

/-- R83: an amount above 15 raises ROTAMT. -/
def execRol (a n : HalfWord) (s : State) : Result :=
  unlessFaulted s <|
    match rotAmount n with
    | .none => raiseFault .rotAmt s
    | .some m => respond (zext32 (rotl16 a m)) s

/-- R84 -/
def execPopc (a : HalfWord) (s : State) : Result :=
  unlessFaulted s (respond (zext32 (countHalf a)) s)

end Sys2Proof.Machine
end

