-- ==== Sys2Proof/Machine/Round.lean ====
section
/-! DEFINITION. The round function and the ten-round encryption (spec/42_cipher.md R100 to R104). -/

namespace Sys2Proof.Machine

/-- R101: round indices 0 to 8 combine by XOR, round index 9 by addition modulo 2^16. -/
def combine (i : Fin 10) (v k : HalfWord) : HalfWord := if i.val ≤ 8 then xor16 v k else add16 v k

/-- R100 `RF(i, k, (x, y))`: the new left is `y XOR x`; the OLD left is rotated by the low four bits of the
new left and combined with the key to give the new right. -/
def rf (i : Fin 10) (k : HalfWord) (b : Block) : Block :=
  let y1 := xor16 b.right b.left
  let x1 := rotl16 b.left (lowNibble y1)
  ⟨y1, combine i x1 k⟩

/-- R103, R14: `t[0]` is the plaintext, `t[i + 1] = RF(i, K[i], t[i])`, for `i` 0 to 9; there is no round
index above 9, so the sequence is constant from index 10 on. -/
def roundOutput (ks : KeySchedule) (p : Block) : Nat → Block
  | 0 => p
  | i + 1 => if h : i < 10 then rf ⟨i, h⟩ ks[i] (roundOutput ks p i) else roundOutput ks p i

/-- R103: the eleven Blocks of an encryption. -/
def trajectory (ks : KeySchedule) (p : Block) : Trajectory :=
  Vector.ofFn fun n => roundOutput ks p n.val

/-- R8, R103: the ciphertext `T[10]`. -/
def ciphertext (ks : KeySchedule) (p : Block) : Block := (trajectory ks p)[10]

end Sys2Proof.Machine
end

