-- ==== Sys2Proof/Machine/Cipher.lean ====
section
/-! DEFINITION. The cipher commands ENC, RDT (spec/42_cipher.md R103, R105). -/

namespace Sys2Proof.Machine

/-- R103: all eleven entries of `T` are written together, and the response is the ciphertext. -/
def execEnc (l r : HalfWord) (s : State) : Result :=
  unlessFaulted s <|
    if s.sealed then
      let tr := trajectory (schedule s) ⟨l, r⟩
      respond (pack tr[10]) { s with t := .some tr, tv := true }
    else raiseFault .keyLen s

/-- R105: an index above 10, or no trajectory yet, raises TRAJLEN. -/
def execRdt (i : Nibble) (s : State) : Result :=
  unlessFaulted s <|
    if 10 < i then raiseFault .trajLen s
    else if s.tv then respond (pack (memReadT s.t i.toNat)) s
    else raiseFault .trajLen s

end Sys2Proof.Machine
end

