-- ==== Sys2Proof/Machine/Keys.lean ====
section
/-! DEFINITION. The key-schedule commands KPUSH, KSEAL (spec/41_key_schedule.md R90, R91; order of checks
spec/60_exceptions.md R157). -/

namespace Sys2Proof.Machine

/-- R90: append one key, unless the schedule is sealed (KEYIMM) or has ten entries (KEYLEN). -/
def execKpush (v : HalfWord) (s : State) : Result :=
  unlessFaulted s <|
    if s.sealed then raiseFault .keyImm s
    else if s.kn = 10 then raiseFault .keyLen s
    else respond 0 { s with k := memWriteK s.k s.kn.val v, kn := s.kn + 1 }

/-- R91: seal a schedule of ten entries, once. -/
def execKseal (s : State) : Result :=
  unlessFaulted s <|
    if s.sealed then raiseFault .keyImm s
    else if s.kn ≠ 10 then raiseFault .keyLen s
    else respond 0 { s with sealed := true }

end Sys2Proof.Machine
end

