-- ==== Sys2Proof/Machine/System.lean ====
section
/-! DEFINITION. The system command RDS (spec/43_system.md R120). -/

namespace Sys2Proof.Machine

/-- R120, R155: executed in every phase, FAULTED too; changes no state. -/
def execRds (s : State) : Result := respond (statusWord s) s

end Sys2Proof.Machine
end

