-- ==== Sys2Proof/Machine/Dispatch.lean ====
section
/-! DEFINITION. One arm per command (spec/30_encoding.md R65). -/

namespace Sys2Proof.Machine

def exec (i : Instr) (s : State) : Host.Outcome State Fault Refusal :=
  match i with
  | .xor a b => Sys2Proof.Machine.execXor a b s
  | .add a b => Sys2Proof.Machine.execAdd a b s
  | .rol a n => Sys2Proof.Machine.execRol a n s
  | .popc a => Sys2Proof.Machine.execPopc a s
  | .kpush v => Sys2Proof.Machine.execKpush v s
  | .kseal => Sys2Proof.Machine.execKseal s
  | .enc l r => Sys2Proof.Machine.execEnc l r s
  | .rdt n => Sys2Proof.Machine.execRdt n s
  | .rds => Sys2Proof.Machine.execRds s

end Sys2Proof.Machine
end

