-- ==== Sys2Proof/Machine/Command.lean ====
section
/-! DEFINITION. The execution of one command word, and of one action of the host
(spec/60_exceptions.md R157, spec/00_scope.md R13, spec/70_reset_and_hazards.md R170). -/

namespace Sys2Proof.Machine

/-- R120, R154: the one word that is executed while `F = 1`. -/
def rdsWord : CommandWord := 0xC000000000

/-- R157, in its order: the faulted state, then the legality of the word, then the command with its own
checks. -/
def executeWord (w : CommandWord) (s : State) : Result :=
  if s.f then
    if w = rdsWord then exec .rds s else refuse s
  else
    match decode w with
    | .error _ => raiseFault .illCmd s
    | .ok i => exec i s

/-- One action of the host (R13, R180). -/
def perform (a : HostAction) (s : State) : Result :=
  match a with
  | .issue w => executeWord w s
  | .reset => .next (applyReset s)

/-- The next action is taken from the queue and performed. While the host presents nothing
(`cmd_valid = 0`) no command is issued (R62) and nothing changes; DEDUCED, safe, log entry 4. -/
def takeAction (s : State) : Result :=
  match s.pending with
  | [] => .next s
  | a :: rest => perform a { s with pending := rest }

/-- The command word is the next one the host issues. -/
def issueNext (w : CommandWord) (s : State) : State := { s with pending := .issue w :: s.pending }

end Sys2Proof.Machine
end

