-- ==== Sys2Proof/Machine/Step.lean ====
section
/-! DEFINITION. The step (spec/00_scope.md R13): the next action of the host is taken, and a command word
among them is executed whole. -/

namespace Sys2Proof.Machine

def step (s : State) : Host.Outcome State Fault Refusal := takeAction s

/-- FC16 fetches nothing (R30): a command word runs when the host issues it at port `cmd`. Log entry 5. -/
def State.withFetchWord (s : State) (nbits w : Nat) : State := issueNext (tableWord nbits w) s

end Sys2Proof.Machine
end

