-- ==== Sys2Proof/Machine/Summary.lean ====
section
/-! DEFINITION. The one-page transition function of spec/70_reset_and_hazards.md R182, written from that page
alone. The machine does not call it: it is what the machine is compared with. -/

namespace Sys2Proof.Machine

/-- R182, `legal`. -/
def summaryLegal (op : Nat) (idx : Nibble) (a b : HalfWord) : Bool :=
  match op with
  | 0x1 | 0x2 | 0x3 | 0xA => idx == 0
  | 0x4 | 0x8 => idx == 0 && b == 0
  | 0x9 | 0xC => idx == 0 && a == 0 && b == 0
  | 0xB => a == 0 && b == 0
  | _ => false

/-- R182, the loop `for i = 0..9: t[i+1] = RF(i, st.K[i], t[i])`, from `t[0] = (A, B)`. -/
def summaryRounds (st : State) (p : Block) : Trajectory :=
  (List.finRange 10).foldl (fun t i => t.set (i.val + 1) (rf i (memReadK st.k i) t[i.val]))
    (Vector.replicate 11 p)

/-- R182, `fault(c)`. -/
def summaryFault (st : State) (c : Cause) : Response × State :=
  (⟨true, 0⟩, { st with f := true, cause := c })

/-- R182, `step(st, w)`: the response and the new state. -/
def summaryStep (st : State) (w : CommandWord) : Response × State :=
  let op := (w.extractLsb' 36 4).toNat
  let idx := w.extractLsb' 32 4
  let a := w.extractLsb' 16 16
  let b := w.extractLsb' 0 16
  if st.f then
    if op = 0xC ∧ summaryLegal op idx a b then (⟨false, statusWord st⟩, st) else (⟨true, 0⟩, st)
  else if !summaryLegal op idx a b then summaryFault st .illCmd
  else
    match op with
    | 0x1 => (⟨false, zext32 (xor16 a b)⟩, st)
    | 0x2 => (⟨false, zext32 (add16 a b)⟩, st)
    | 0x3 => if b.toNat > 15 then summaryFault st .rotAmt
             else (⟨false, zext32 (rotl16 a (BitVec.ofNat 4 b.toNat))⟩, st)
    | 0x4 => (⟨false, BitVec.ofNat 32 (popcount16 a)⟩, st)
    | 0x8 => if st.sealed then summaryFault st .keyImm
             else if st.kn = 10 then summaryFault st .keyLen
             else (⟨false, 0⟩, { st with k := memWriteK st.k st.kn.val a, kn := st.kn + 1 })
    | 0x9 => if st.sealed then summaryFault st .keyImm
             else if st.kn ≠ 10 then summaryFault st .keyLen
             else (⟨false, 0⟩, { st with sealed := true })
    | 0xA => if !st.sealed then summaryFault st .keyLen
             else let t := summaryRounds st ⟨a, b⟩
                  (⟨false, pack t[10]⟩, { st with t := .some t, tv := true })
    | 0xB => if idx.toNat > 10 then summaryFault st .trajLen
             else if !st.tv then summaryFault st .trajLen
             else (⟨false, pack (memReadT st.t idx.toNat)⟩, st)
    | _ => (⟨false, statusWord st⟩, st)

end Sys2Proof.Machine
end

