-- ==== Sys2Proof/Machine/Assembly.lean ====
section
/-! DEFINITION. The host's side of spec/30_encoding.md R70: assembler lines, names bound to responses,
pseudo-instructions, and the host that assembles a line, issues it and keeps its response. None of it is inside
FC16 (spec/92_eei_decisions.md D17). Log entry 13. -/

namespace Sys2Proof.Machine

/-- R70: `%name`, or a fresh temporary of a pseudo-instruction. -/
inductive AsmName where
  | user (cs : List Char)
  | temp (n : Nat)
deriving DecidableEq, Repr

/-- R70: a literal, or a part of the response a name is bound to. -/
inductive AsmOperand where
  | lit (v : HalfWord)
  /-- `%name` and `%name.r`: `Y[15:0]` -/
  | low (n : AsmName)
  /-- `%name.l`: `Y[31:16]` -/
  | high (n : AsmName)
deriving DecidableEq, Repr

/-- R70: the mnemonics of lines that stand for one action of the host. -/
inductive AsmOp where
  | xor | add | rol | popc | kpush | kseal | enc | rdt | rds | reset
deriving DecidableEq, Repr

/-- R70: the pseudo-instructions. -/
inductive PseudoOp where
  | not | neg | sub | bxor | kload
deriving DecidableEq, Repr

/-- One line: `%name = COMMAND operands`, the name optional. -/
structure AsmLine where
  bind     : Option AsmName
  op       : AsmOp
  operands : List AsmOperand
deriving DecidableEq, Repr

/-- What the host remembers: the response each name is bound to, latest first. -/
abbrev AsmEnv := List (AsmName × Response)

/-- R70: "if the bound command faulted, the later line cannot be assembled". R70 does not say what a name stands for that
is bound to a refused command (R154), or to none: no value here either, so the test is FLT, 1 for both ways (R61).
DESIGN CHOICE, log entry 13. -/
def operandValue (env : AsmEnv) : AsmOperand → Option HalfWord
  | .lit v => .some v
  | .low n => (env.find? (·.1 = n)).bind fun b =>
      if b.2.flt then .none else .some (unpack b.2.y).right
  | .high n => (env.find? (·.1 = n)).bind fun b =>
      if b.2.flt then .none else .some (unpack b.2.y).left

/-- A line with one operand. -/
def oneOperand {α β : Type} (f : α → Option β) : List α → Option β
  | [a] => f a
  | _ => .none

/-- A line with two operands. -/
def twoOperands {α β : Type} (f : α → α → Option β) : List α → Option β
  | [a, b] => f a b
  | _ => .none

/-- A line without operands. -/
def noOperand {α β : Type} (b : β) : List α → Option β
  | [] => .some b
  | _ => .none

/-- R70: the action of a line with its operands' values; an index that `IDX` cannot hold, or a wrong number of
operands, cannot be assembled. -/
def assemble (op : AsmOp) (vs : List HalfWord) : Option HostAction :=
  match op with
  | .xor   => twoOperands (fun a b => .some (.issue (encode (.xor a b)))) vs
  | .add   => twoOperands (fun a b => .some (.issue (encode (.add a b)))) vs
  | .rol   => twoOperands (fun a n => .some (.issue (encode (.rol a n)))) vs
  | .popc  => oneOperand (fun a => .some (.issue (encode (.popc a)))) vs
  | .kpush => oneOperand (fun v => .some (.issue (encode (.kpush v)))) vs
  | .kseal => noOperand (.issue (encode .kseal)) vs
  | .enc   => twoOperands (fun l r => .some (.issue (encode (.enc l r)))) vs
  | .rdt   => oneOperand (fun i => if i ≤ 15 then .some (.issue (encode (.rdt (i.setWidth 4)))) else .none) vs
  | .rds   => noOperand (.issue (encode .rds)) vs
  | .reset => noOperand .reset vs

/-- R70: the expansion of each pseudo-instruction; `m` numbers its temporaries, and a bound name gets the
response of the last command. `BXOR` has two results and `KLOAD` none, so neither takes a name. -/
def expandPseudo (m : Nat) (bind : Option AsmName) (op : PseudoOp) (os : List AsmOperand) :
    Option (List AsmLine) :=
  match op with
  | .not => oneOperand (fun a => .some [⟨bind, .xor, [a, .lit 0xFFFF]⟩]) os
  | .neg => oneOperand (fun a => .some
      [⟨.some (.temp m), .xor, [a, .lit 0xFFFF]⟩, ⟨bind, .add, [.low (.temp m), .lit 1]⟩]) os
  | .sub => twoOperands (fun a b => .some
      [⟨.some (.temp m), .xor, [b, .lit 0xFFFF]⟩,
       ⟨.some (.temp (m + 1)), .add, [.low (.temp m), .lit 1]⟩,
       ⟨bind, .add, [a, .low (.temp (m + 1))]⟩]) os
  | .bxor =>
    match os with
    | [l1, r1, l2, r2] =>
      if bind.isNone then .some [⟨.none, .xor, [l1, l2]⟩, ⟨.none, .xor, [r1, r2]⟩] else .none
    | _ => .none
  | .kload =>
    if bind.isNone ∧ os.length = 10 then
      .some (os.map (fun v => ⟨.none, .kpush, [v]⟩) ++ [⟨.none, .kseal, []⟩])
    else .none

/-- The host lets the block perform an action and binds the name, if the line has one, to the response. `RESET` has
no response (R170), so it takes no name. -/
def performBound (bind : Option AsmName) (a : HostAction) (h : AsmEnv × State) : Option (AsmEnv × State) :=
  match perform a h.2 with
  | .next s' =>
    match bind, a with
    | .none, _ => .some (h.1, s')
    | .some n, .issue _ => s'.responses.getLast?.map fun r => ((n, r) :: h.1, s')
    | .some _, .reset => .none
  | _ => .none

/-- One line: the operands' values, the action, its performance. `none`: the line cannot be assembled. -/
def runLine (l : AsmLine) (h : AsmEnv × State) : Option (AsmEnv × State) :=
  (l.operands.mapM (operandValue h.1)).bind fun vs =>
  (assemble l.op vs).bind fun a => performBound l.bind a h

/-- R70: one command per line, in order. -/
def runLines (ls : List AsmLine) (h : AsmEnv × State) : Option (AsmEnv × State) :=
  match ls with
  | [] => .some h
  | l :: rest => (runLine l h).bind (runLines rest)

/-! ## The text of a line -/

inductive AsmToken where
  | word (cs : List Char)
  | comma
  | equals
deriving DecidableEq, Repr

/-- The word read so far, if any, then the tokens after it. -/
def closeWord (cs : List Char) (rest : List AsmToken) : List AsmToken :=
  if cs.isEmpty then rest else .word cs :: rest

/-- R70: a comment runs from `;` to the end of the line; operands are separated by commas. -/
def lexLine (sofar : List Char) : List Char → List AsmToken
  | [] => closeWord sofar []
  | c :: cs =>
    if c = ';' then closeWord sofar []
    else if c = ' ' ∨ c = '\t' then closeWord sofar (lexLine [] cs)
    else if c = ',' then closeWord sofar (.comma :: lexLine [] cs)
    else if c = '=' then closeWord sofar (.equals :: lexLine [] cs)
    else lexLine (sofar ++ [c]) cs

def digitValue (c : Char) : Option Nat :=
  let n := c.toNat
  if 48 ≤ n ∧ n ≤ 57 then .some (n - 48)
  else if 65 ≤ n ∧ n ≤ 70 then .some (n - 55)
  else if 97 ≤ n ∧ n ≤ 102 then .some (n - 87)
  else .none

/-- The number a list of digits writes in a base, most significant first. -/
def digitsValue (base sofar : Nat) : List Char → Option Nat
  | [] => .some sofar
  | c :: cs => (digitValue c).bind fun d => if d < base then digitsValue base (sofar * base + d) cs else .none

/-- R70: `0xHHHH`, one to four digits, or a decimal literal 0 to 65535. -/
def readLiteral : List Char → Option HalfWord
  | '0' :: 'x' :: ds =>
    if 1 ≤ ds.length ∧ ds.length ≤ 4 then (digitsValue 16 0 ds).map (BitVec.ofNat 16) else .none
  | ds =>
    if ds.isEmpty then .none
    else (digitsValue 10 0 ds).bind fun n => if n ≤ 65535 then .some (BitVec.ofNat 16 n) else .none

/-- R70: `%name`, `%name.l`, `%name.r` or a literal. A word that ends in `.l` or `.r` is always read as a part of a name,
so a binding of a name that itself ends so can never be used; R70 is silent on such names (DESIGN CHOICE, log entry 13). -/
def readOperand : List Char → Option AsmOperand
  | '%' :: cs =>
    match cs.reverse with
    | 'l' :: '.' :: rest => if rest.isEmpty then .none else .some (.high (.user rest.reverse))
    | 'r' :: '.' :: rest => if rest.isEmpty then .none else .some (.low (.user rest.reverse))
    | rest => if rest.isEmpty then .none else .some (.low (.user rest.reverse))
  | cs => (readLiteral cs).map .lit

/-- Operands separated by single commas. -/
def readOperands : List AsmToken → Option (List AsmOperand)
  | [] => .some []
  | [.word cs] => (readOperand cs).map ([·])
  | .word cs :: .comma :: rest =>
    if rest.isEmpty then .none
    else (readOperand cs).bind fun o => (readOperands rest).map (o :: ·)
  | _ => .none

/-- R70: mnemonics are upper case. -/
def readOp : List Char → Option (AsmOp ⊕ PseudoOp)
  | ['X', 'O', 'R'] => .some (.inl .xor)
  | ['A', 'D', 'D'] => .some (.inl .add)
  | ['R', 'O', 'L'] => .some (.inl .rol)
  | ['P', 'O', 'P', 'C'] => .some (.inl .popc)
  | ['K', 'P', 'U', 'S', 'H'] => .some (.inl .kpush)
  | ['K', 'S', 'E', 'A', 'L'] => .some (.inl .kseal)
  | ['E', 'N', 'C'] => .some (.inl .enc)
  | ['R', 'D', 'T'] => .some (.inl .rdt)
  | ['R', 'D', 'S'] => .some (.inl .rds)
  | ['R', 'E', 'S', 'E', 'T'] => .some (.inl .reset)
  | ['N', 'O', 'T'] => .some (.inr .not)
  | ['N', 'E', 'G'] => .some (.inr .neg)
  | ['S', 'U', 'B'] => .some (.inr .sub)
  | ['B', 'X', 'O', 'R'] => .some (.inr .bxor)
  | ['K', 'L', 'O', 'A', 'D'] => .some (.inr .kload)
  | _ => .none

/-- The lines that a mnemonic with its operands stands for. -/
def readCommand (m : Nat) (bind : Option AsmName) : List AsmToken → Option (List AsmLine)
  | .word cs :: rest =>
    (readOp cs).bind fun op => (readOperands rest).bind fun os =>
      match op with
      | .inl o => .some [⟨bind, o, os⟩]
      | .inr p => expandPseudo m bind p os
  | _ => .none

/-- R70: one line of text; `m` numbers the temporaries. An empty line or a comment stands for no line. -/
def readLine (m : Nat) (cs : List Char) : Option (List AsmLine) :=
  match lexLine [] cs with
  | [] => .some []
  | .word ('%' :: n) :: .equals :: rest => if n.isEmpty then .none else readCommand m (.some (.user n)) rest
  | ts => readCommand m .none ts

end Sys2Proof.Machine
end

