-- ==== Sys2Proof/Machine/HostReference.lean ====
section
/-! DEFINITION. The host-side reference procedure (spec/45_host_reference.md R130 to R142), as functions of the
trajectories FC16 computes. None of it is FC16 state and no command runs it (R4, R130). Log entry 14. -/

namespace Sys2Proof.Machine

/-- R131: the fixed input difference. -/
def delta0 : Block := ⟨e16 15, e16 15⟩

/-- R132: the second plaintext of a pair. -/
def partner (p : Block) : Block := bxor p delta0

/-- R132: the number of pairs the document samples; a host parameter (U12). -/
def sampleCount : Nat := 2 ^ 20

/-- A pair of trajectories under one key schedule. -/
abbrev TrajectoryPair := Trajectory × Trajectory

/-- R132: both plaintexts of a pair, encrypted. -/
def encryptPair (ks : KeySchedule) (p : Block) : TrajectoryPair :=
  (trajectory ks p, trajectory ks (partner p))

/-- R133: accept only if the left halves of the two ciphertexts are equal. -/
def passesFilter (tp : TrajectoryPair) : Bool := tp.1[10].left == tp.2[10].left

/-- R133, R134: the candidate pool, for the plaintexts drawn (U13: the stream is an argument). -/
def candidatePool (ks : KeySchedule) (ps : List Block) : List TrajectoryPair :=
  (ps.map (encryptPair ks)).filter passesFilter

/-- R135, from the two Blocks `T[9]`: the test looks at nothing else (R145). -/
def rightDifference (b c : Block) : Bool :=
  let d9 := bxor b c
  d9.left == d9.right && popcount16 d9.left == 1

/-- R135 -/
def isRightPair (tp : TrajectoryPair) : Bool := rightDifference tp.1[9] tp.2[9]

/-- R135: `(poolSize, trueRightPairCount)`, for observability. -/
def poolReport (pool : List TrajectoryPair) : Nat × Nat := (pool.length, pool.countP isRightPair)

/-- R136 -/
def metric (n0 n1 key : HalfWord) : Nat := popcount16 (xor16 (sub16 n0 key) (sub16 n1 key))

/-- R136: the accumulated weight of a candidate key. -/
def keyWeight (pool : List TrajectoryPair) (key : HalfWord) : Nat :=
  (pool.map fun tp => metric tp.1[10].right tp.2[10].right key).sum

/-- R136: the greatest candidate key. Irreducible, so that no tactic counts up to it. -/
@[irreducible] def lastKey : Nat := 0xFFFF

/-- R137: of the candidates `0 .. n`, the least one of minimum weight. -/
def leastBest (weight : HalfWord → Nat) : Nat → HalfWord
  | 0 => 0
  | n + 1 =>
    let best := leastBest weight n
    if weight (BitVec.ofNat 16 (n + 1)) < weight best then BitVec.ofNat 16 (n + 1) else best

/-- R136, R137: the key recovered, over all 2^16 candidates. -/
def recoveredKey (pool : List TrajectoryPair) : HalfWord := leastBest (keyWeight pool) lastKey

/-- R139: success compares the low 15 bits. -/
def trialSucceeds (recovered key9 : HalfWord) : Bool :=
  recovered.extractLsb' 0 15 == key9.extractLsb' 0 15

/-- R139: successes out of N trials, each a key schedule and the plaintexts drawn for it. -/
def trialReport (trials : List (KeySchedule × List Block)) : Nat × Nat :=
  (trials.countP fun tr => trialSucceeds (recoveredKey (candidatePool tr.1 tr.2)) tr.1[9], trials.length)

/-! ## What is surfaced to the caller (R138) -/

/-- R137's choice among the candidates `0 .. n` that are admitted: the least one of minimum weight, if any is. -/
def leastBestWhere (admits : HalfWord → Bool) (weight : HalfWord → Nat) : Nat → Option HalfWord
  | 0 => if admits 0 then .some 0 else .none
  | n + 1 =>
    let key := BitVec.ofNat 16 (n + 1)
    match leastBestWhere admits weight n with
    | .none => if admits key then .some key else .none
    | .some best => if admits key && weight key < weight best then .some key else .some best

/-- R138: the best admitted key other than `best`, and by how much its weight exceeds that of `best`. -/
def runnerUp (admits : HalfWord → Bool) (weight : HalfWord → Nat) (best : HalfWord) : Option (HalfWord × Nat) :=
  (leastBestWhere admits weight lastKey).map fun key => (key, weight key - weight best)

/-- R135, R138: the recovered key with what tells the caller how far to trust it. What counts as near-empty or near-tied
is the host's parameter (U17). -/
structure RecoveryReport where
  recovered  : HalfWord
  poolSize   : Nat
  /-- the right pairs of the pool; `none` when the diagnostic was not run (R143) -/
  rightPairs : Option Nat
  /-- the second-best of all keys, with the weight gap -/
  secondBest : Option (HalfWord × Nat)
  /-- the best key whose low 15 bits differ from the recovered key's, with the weight gap; DESIGN CHOICE, log entry 16:
  by R142 the gap of `secondBest` is always 0 -/
  rival      : Option (HalfWord × Nat)
deriving DecidableEq, Repr

/-- R137, R138: the report of a weight table. -/
def reportOf (poolSize : Nat) (rightPairs : Option Nat) (weight : HalfWord → Nat) : RecoveryReport :=
  let best := leastBest weight lastKey
  { recovered  := best
    poolSize   := poolSize
    rightPairs := rightPairs
    secondBest := runnerUp (fun key => key != best) weight best
    rival      := runnerUp (fun key => !trialSucceeds key best) weight best }

/-- R138: the ranking runs on every pool, the empty one too, and its outcome is reported, never a fault (R160). -/
def recoveryReport (pool : List TrajectoryPair) : RecoveryReport :=
  reportOf pool.length (.some (poolReport pool).2) (keyWeight pool)

end Sys2Proof.Machine
end

