-- ==== Sys2Proof/Machine/Trial.lean ====
section
/-! DEFINITION. One trial on one FC16 instance, in commands (spec/45_host_reference.md R143): the host's lines, what it
keeps of the responses, and what it reports. Log entry 14. -/

namespace Sys2Proof.Machine

/-! ## Names of R143 and of its ranking loop -/

def nameC1 : AsmName := .user ['c', '1']
def nameD1 : AsmName := .user ['d', '1']
def nameC2 : AsmName := .user ['c', '2']
def nameD2 : AsmName := .user ['d', '2']
/-- `SUB(N0, k)` -/
def nameA : AsmName := .user ['a']
/-- `SUB(N1, k)` -/
def nameB : AsmName := .user ['b']
/-- `XOR` of the two -/
def nameX : AsmName := .user ['x']
/-- `POPC` of that -/
def nameM : AsmName := .user ['m']

/-! ## Setting up -/

/-- R143: `RESET`, then `KLOAD k0, ..., k9`. -/
def trialSetup (ks : KeySchedule) (s : State) : Option State :=
  (expandPseudo 0 .none .kload (ks.toList.map .lit)).bind fun load =>
  (runLines (⟨.none, .reset, []⟩ :: load) ([], s)).map (·.2)

/-! ## Sampling -/

/-- R143: `RDT 9`, only if the right-pair diagnostic is wanted. -/
def diagnosticLines (diag : Bool) (n : AsmName) : List AsmLine :=
  if diag then [⟨.some n, .rdt, [.lit 9]⟩] else []

/-- R143, for one plaintext drawn; the first trajectory is read before the second ENC (R175). -/
def pairLines (diag : Bool) (p : Block) : List AsmLine :=
  ⟨.some nameC1, .enc, [.lit p.left, .lit p.right]⟩ :: diagnosticLines diag nameD1 ++
  ⟨.some nameC2, .enc, [.lit (partner p).left, .lit (partner p).right]⟩ :: diagnosticLines diag nameD2

/-- R143: what the pool keeps of a pair: `(%c1.r, %c2.r, %d1, %d2)`. -/
structure PoolMember where
  n0 : HalfWord
  n1 : HalfWord
  /-- `%d1` and `%d2`, if the diagnostic is wanted -/
  d9 : Option (Block × Block)
deriving DecidableEq, Repr

/-- Both halves of the response a name is bound to. -/
def blockValue (env : AsmEnv) (n : AsmName) : Option Block :=
  (operandValue env (.high n)).bind fun l => (operandValue env (.low n)).map fun r => ⟨l, r⟩

/-- `%d1` and `%d2`, if the diagnostic is wanted. -/
def diagnosis (diag : Bool) (env : AsmEnv) : Option (Option (Block × Block)) :=
  if diag then (blockValue env nameD1).bind fun d1 => (blockValue env nameD2).map fun d2 => .some (d1, d2)
  else .some .none

/-- R133, R143: `if %c1.l = %c2.l: append (%c1.r, %c2.r, %d1, %d2) to the pool`. -/
def memberOf (diag : Bool) (env : AsmEnv) : Option (Option PoolMember) :=
  (blockValue env nameC1).bind fun c1 => (blockValue env nameC2).bind fun c2 =>
  (diagnosis diag env).map fun d =>
    if c1.left = c2.left then .some ⟨c1.right, c2.right, d⟩ else .none

/-- One turn of the sampling loop. -/
def samplePair (diag : Bool) (p : Block) (s : State) : Option (Option PoolMember × State) :=
  (runLines (pairLines diag p) ([], s)).bind fun h => (memberOf diag h.1).map fun m => (m, h.2)

/-- The sampling loop, over the plaintexts drawn (U12, U13: their number and values are the host's). -/
def samplePairs (diag : Bool) : List Block → State → Option (List PoolMember × State)
  | [], s => .some ([], s)
  | p :: ps, s => (samplePair diag p s).bind fun m =>
      (samplePairs diag ps m.2).map fun r => (m.1.toList ++ r.1, r.2)

/-- R135, from `%d1` and `%d2`. -/
def PoolMember.isRight (m : PoolMember) : Bool :=
  match m.d9 with
  | .some d => rightDifference d.1 d.2
  | .none => false

/-! ## Ranking -/

/-- R143: `POPC(XOR(SUB(N0, k), SUB(N1, k)))`, issued as ALU commands. -/
def metricLines (n0 n1 key : HalfWord) : Option (List AsmLine) :=
  (expandPseudo 0 (.some nameA) .sub [.lit n0, .lit key]).bind fun a =>
  (expandPseudo 2 (.some nameB) .sub [.lit n1, .lit key]).map fun b =>
    a ++ b ++ [⟨.some nameX, .xor, [.low nameA, .low nameB]⟩, ⟨.some nameM, .popc, [.low nameX]⟩]

def metricByCommands (n0 n1 key : HalfWord) (s : State) : Option (Nat × State) :=
  (metricLines n0 n1 key).bind fun ls => (runLines ls ([], s)).bind fun h =>
  (operandValue h.1 (.low nameM)).map fun v => (v.toNat, h.2)

/-- R143: `weight[k]`, accumulated over the pool. -/
def weightByCommands (key : HalfWord) : List PoolMember → State → Option (Nat × State)
  | [], s => .some (0, s)
  | m :: pool, s => (metricByCommands m.n0 m.n1 key s).bind fun w =>
      (weightByCommands key pool w.2).map fun r => (w.1 + r.1, r.2)

/-- R136: the weight table, one entry for each key of the list. -/
def weightTable (pool : List PoolMember) : List HalfWord → State → Option (List Nat × State)
  | [], s => .some ([], s)
  | key :: keys, s => (weightByCommands key pool s).bind fun w =>
      (weightTable pool keys w.2).map fun r => (w.1 :: r.1, r.2)

/-- R136: `k = 0 to 0xFFFF`. -/
def allKeys : List HalfWord := (List.range (lastKey + 1)).map (BitVec.ofNat 16)

/-! ## The trial -/

/-- R143, with R137 and R138: set up, sample, rank, report. `none`: some line could not be assembled. -/
def trialByCommands (diag : Bool) (ks : KeySchedule) (ps : List Block) (s : State) : Option (RecoveryReport × State) :=
  (trialSetup ks s).bind fun loaded => (samplePairs diag ps loaded).bind fun pool =>
  (weightTable pool.1 allKeys pool.2).map fun table =>
    (reportOf pool.1.length (if diag then .some (pool.1.countP PoolMember.isRight) else .none)
      (fun key => table.1[key.toNat]?.getD 0), table.2)

end Sys2Proof.Machine
end

