-- ==== Sys2Proof/Safety.lean ====
section
/-! DEFINITION. What holds in every state a run from reset reaches, and what counts as a safe run, in the terms the
statements use. -/

namespace Sys2Proof.Machine

/-- The invariants the spec states of the bookkeeping elements and of what the stores hold. -/
structure State.Inv (s : State) : Prop where
  /-- R21, R22, R33: exactly the first `KN` key entries hold a value -/
  keysHeld   : ∀ i : Fin 10, s.k[i].isSome = true ↔ i.val < s.kn.val
  /-- R23: `SEALED = 1` implies `KN = 10` -/
  sealedFull : s.sealed = true → s.kn = 10
  /-- R25: `TV` says whether `T` holds a trajectory -/
  trajHeld   : s.t.isSome = s.tv
  /-- R162: only ENC sets `TV`, and ENC needs SEALED -/
  trajSealed : s.tv = true → s.sealed = true
  /-- R27: `F = 0` if and only if `CAUSE = 0` -/
  causeIffF  : s.f = false ↔ s.cause = .none

/-- R104: what `T` holds is a trajectory of the key schedule in `K`. -/
def State.TrajectoryInv (s : State) : Prop :=
  ∀ tr, s.t = .some tr → ∀ i : Fin 10, ∀ key, s.k[i] = .some key → tr[i.val + 1] = rf i key tr[i.val]

/-- R179: a run has gone wrong when some response has FLT = 1. -/
def State.goneWrong (s : State) : Prop := ∃ r ∈ s.responses, r.flt = true

/-- The host does not assert reset next. -/
def State.noResetNext (s : State) : Prop := s.pending.head? ≠ .some .reset

/-- The seven elements of R20 are equal in two states. -/
def sameElements (s t : State) : Prop :=
  t.k = s.k ∧ t.kn = s.kn ∧ t.sealed = s.sealed ∧ t.t = s.t ∧ t.tv = s.tv ∧ t.f = s.f ∧ t.cause = s.cause

/-- R80: the four HalfWord ALU commands. -/
def isAlu : Instr → Bool
  | .xor _ _ | .add _ _ | .rol _ _ | .popc _ => true
  | .kpush _ | .kseal | .enc _ _ | .rdt _ | .rds => false

/-- Every word with opcode `op` decodes to `i` of the word when its format's reserved fields are zero, and is an illegal
word otherwise: ILLCMD while `F = 0`, refused while `F = 1` (R66). -/
def decodesAs (op : Nibble) (fieldsFree : CommandWord → Prop) (i : CommandWord → Instr) : Prop :=
  ∀ w, opField w = op →
    (fieldsFree w → decode w = .ok (i w)) ∧
    (¬ fieldsFree w →
      (∀ s, s.f = false → step (issueNext w s) =
        .next { s with f := true, cause := .illCmd, responses := s.responses ++ [⟨true, 0⟩] }) ∧
      ∀ s, s.f = true → step (issueNext w s) = .next { s with responses := s.responses ++ [⟨true, 0⟩] })

/-- R154: the command is answered FLT = 1, Y = 0 without effect while `F = 1`. -/
def refusedWhenFaulted (i : Instr) : Prop :=
  ∀ s : State, s.f = true → exec i s = .next { s with responses := s.responses ++ [⟨true, 0⟩] }

end Sys2Proof.Machine
end

