-- ==== Sys2Proof/Certificates/Slice0/Obligations.lean ====
section
/-! DEFINITION. The statements about FC16, one for each group of rules; OBLIGATIONS.json says which rule each one
formalises. A command's result is written as the whole next state, so that it says the frame too: every element not
named in the record update is unchanged. -/

open Sys2Proof Sys2Proof.Machine

/-! ## Encoding (30_encoding.md) -/

/-- R65's patterns, read with the examples of R81 to R105: nine written-out words. -/
def Obligations.WordsDecodeAsWritten : Prop :=
  decode 0x10123400FF = .ok (.xor 0x1234 0x00FF) ∧
  decode 0x207A996666 = .ok (.add 0x7A99 0x6666) ∧
  decode 0x3012340004 = .ok (.rol 0x1234 4) ∧
  decode 0x4012340000 = .ok (.popc 0x1234) ∧
  decode 0x8012340000 = .ok (.kpush 0x1234) ∧
  decode 0x9000000000 = .ok .kseal ∧
  decode 0xA001234567 = .ok (.enc 0x0123 0x4567) ∧
  decode 0xB900000000 = .ok (.rdt 9) ∧
  decode 0xC000000000 = .ok .rds

/-- No bit of an encoding is dropped: every command, with every operand at every value. -/
def Obligations.DecodeOfEncodeIsTheCommand : Prop :=
  ∀ i : Instr, i.wellFormed = true → decode (encode i) = .ok i

/-- Each legal word has one meaning and is that command's encoding. -/
def Obligations.EncodeOfDecodeIsTheWord : Prop :=
  ∀ (w : CommandWord) (i : Instr), decode w = .ok i → encode i = w

/-- R66: what is illegal, that it raises ILLCMD or is refused, and that RDT with `IDX` 11 to 15 is not illegal. -/
def Obligations.ReservedWordsRaiseIllcmd : Prop :=
  (∀ w, wellFormedWord w = false ↔ ∃ e, decode w = .error e) ∧ causeCode .illCmd = 5 ∧
  (∀ w s, wellFormedWord w = false → s.f = false →
    step (issueNext w s) =
      .next { s with f := true, cause := .illCmd, responses := s.responses ++ [⟨true, 0⟩] }) ∧
  (∀ w s, wellFormedWord w = false → s.f = true →
    step (issueNext w s) = .next { s with responses := s.responses ++ [⟨true, 0⟩] }) ∧
  wellFormedWord 0 = false ∧ wellFormedWord 0xFFFFFFFFFF = false ∧
  (∀ i : Nibble, 11 ≤ i.toNat → ∀ w, opField w = 0xB → idxField w = i → aField w = 0 → bField w = 0 →
    decode w = .ok (.rdt i) ∧
    ∀ s, s.f = false → step (issueNext w s) =
      .next { s with f := true, cause := .trajLen, responses := s.responses ++ [⟨true, 0⟩] })

/-- R65: the nine (match, mask) pairs are pairwise disjoint. -/
def Obligations.OpcodeRowsAreDisjoint : Prop :=
  ∀ (w : CommandWord) (r q : Row), r ∈ rows → q ∈ rows →
    w &&& r.mask = r.pattern → w &&& q.mask = q.pattern → r.op = q.op

/-- R13, R69: a step whose next action issues a word that decodes runs that command, with the action taken from the
host's queue; and so for a word placed by `withFetchWord`. -/
def Obligations.StepRunsTheDecodedCommand : Prop :=
  (∀ (s : State) (w : CommandWord) (rest : List HostAction) (i : Instr),
    s.pending = .issue w :: rest → decode w = .ok i → step s = exec i { s with pending := rest }) ∧
  (∀ (s : State) (w : Nat) (i : Instr), decodeTableWord 40 w = some i →
    step (s.withFetchWord 40 w) = exec i s)

/-! ## HalfWord ALU (40_alu.md) -/

/-- R81 -/
def Obligations.XorAnswersBitwiseXor : Prop :=
  decodesAs 0x1 (fun w => idxField w = 0) (fun w => .xor (aField w) (bField w)) ∧
  (∀ (a b : HalfWord) (s : State), s.f = false → ∃ y : Word,
    exec (.xor a b) s = .next { s with responses := s.responses ++ [⟨false, y⟩] } ∧
    (∀ i, i < 16 → y.getLsbD i = (a.getLsbD i ^^ b.getLsbD i)) ∧ ∀ i, 16 ≤ i → y.getLsbD i = false) ∧
  ∀ a b, refusedWhenFaulted (.xor a b)

/-- R82 -/
def Obligations.AddAnswersSumModulo : Prop :=
  decodesAs 0x2 (fun w => idxField w = 0) (fun w => .add (aField w) (bField w)) ∧
  (∀ (a b : HalfWord) (s : State), s.f = false → ∃ y : Word,
    exec (.add a b) s = .next { s with responses := s.responses ++ [⟨false, y⟩] } ∧
    y.toNat = (a.toNat + b.toNat) % 65536) ∧
  ∀ a b, refusedWhenFaulted (.add a b)

/-- R83, with R9 (the direction of rotation is the spec's general knowledge, U9, log entry 6): bit `i` of the operand is bit `(i + n) mod 16` of the result; an amount above 15 raises ROTAMT. -/
def Obligations.RolRotatesOrFaults : Prop :=
  decodesAs 0x3 (fun w => idxField w = 0) (fun w => .rol (aField w) (bField w)) ∧
  (∀ (a n : HalfWord) (s : State), s.f = false → n.toNat ≤ 15 → ∃ y : Word,
    exec (.rol a n) s = .next { s with responses := s.responses ++ [⟨false, y⟩] } ∧
    (∀ i, i < 16 → y.getLsbD ((i + n.toNat) % 16) = a.getLsbD i) ∧ ∀ i, 16 ≤ i → y.getLsbD i = false) ∧
  (∀ (a n : HalfWord) (s : State), s.f = false → 15 < n.toNat →
    exec (.rol a n) s =
      .next { s with f := true, cause := .rotAmt, responses := s.responses ++ [⟨true, 0⟩] }) ∧
  ∀ a n, refusedWhenFaulted (.rol a n)

/-- R84 -/
def Obligations.PopcCountsSetBits : Prop :=
  decodesAs 0x4 (fun w => idxField w = 0 ∧ bField w = 0) (fun w => .popc (aField w)) ∧
  (∀ (a : HalfWord) (s : State), s.f = false → ∃ y : Word,
    exec (.popc a) s = .next { s with responses := s.responses ++ [⟨false, y⟩] } ∧
    y.toNat = (Finset.univ.filter fun i : Fin 16 => a.getLsbD i.val = true).card) ∧
  ∀ a, refusedWhenFaulted (.popc a)

/-- R80: one response, whatever the state, and no effect on the cipher state; only a fault writes `F` and `CAUSE`;
refused while `F = 1`. -/
def Obligations.AluCommandsArePure : Prop :=
  ∀ i : Instr, isAlu i = true →
    (∃ r : Response, r.y.toNat < 65536 ∧ ∀ s : State, s.f = false → ∃ t : State,
      exec i s = .next t ∧ t = { s with f := t.f, cause := t.cause, responses := s.responses ++ [r] } ∧
      (t.f = r.flt) ∧ (r.flt = false → t.cause = s.cause) ∧
      (r.flt = true → t.cause = .rotAmt ∧ ∃ a n, i = .rol a n ∧ 15 < n.toNat)) ∧
    ∀ s : State, s.f = true → exec i s = .next { s with responses := s.responses ++ [⟨true, 0⟩] }

/-- R9, which the spec marks as general knowledge (U9, log entry 6): `rotl16` by its formula and by its bits. -/
def Obligations.RotateLeftMovesBits : Prop :=
  (∀ a : HalfWord, rotl16 a 0 = a) ∧
  (∀ (a : HalfWord) (s : Nibble), s ≠ 0 →
    (rotl16 a s).toNat = a.toNat * 2 ^ s.toNat % 65536 + a.toNat / 2 ^ (16 - s.toNat)) ∧
  (∀ (a : HalfWord) (s : Nibble) (i : Nat), i < 16 →
    (rotl16 a s).getLsbD ((i + s.toNat) % 16) = a.getLsbD i)

/-- R85, the rows on rotation. The last clause rests on the direction of rotation, which the spec supplies from general
knowledge (R9, U9, log entry 6); the others hold for either direction. -/
def Obligations.RotationLaws : Prop :=
  (∀ (a : HalfWord) (s t : Nibble),
    rotl16 (rotl16 a s) t = rotl16 a (BitVec.ofNat 4 ((s.toNat + t.toNat) % 16))) ∧
  (∀ (a : HalfWord) (s : Nibble), rotl16 (rotl16 a s) (BitVec.ofNat 4 ((16 - s.toNat) % 16)) = a) ∧
  (∀ s : Nibble, Function.Bijective fun a => rotl16 a s) ∧
  (∀ (a b : HalfWord) (s : Nibble), rotl16 (xor16 a b) s = xor16 (rotl16 a s) (rotl16 b s)) ∧
  (∀ j s : Nibble, rotl16 (e16 j) s = e16 (BitVec.ofNat 4 ((j.toNat + s.toNat) % 16)))

/-- R85, the rows on population count; R10's range. -/
def Obligations.PopcountLaws : Prop :=
  (∀ a : HalfWord, popcount16 a ≤ 16) ∧
  (∀ (a : HalfWord) (s : Nibble), popcount16 (rotl16 a s) = popcount16 a) ∧
  (∀ a b : HalfWord, popcount16 (xor16 a b)
    = (Finset.univ.filter fun i : Fin 16 => a.getLsbD i.val ≠ b.getLsbD i.val).card) ∧
  (∀ a b : HalfWord, popcount16 (xor16 a b) = 0 ↔ a = b) ∧
  (∀ a : HalfWord, popcount16 a = 1 ↔ ∃ j : Nibble, a = e16 j)

/-- R86: subtraction by XOR and ADD, and the identity for `0x8000`. -/
def Obligations.SubtractionByXorAndAdd : Prop :=
  (∀ a b : HalfWord, sub16 a b = add16 a (add16 (xor16 b 0xFFFF) 0x0001)) ∧
  (∀ a : HalfWord, xor16 a 0x8000 = add16 a 0x8000 ∧ xor16 a 0x8000 = sub16 a 0x8000)

/-- R7: packing and its inverse. -/
def Obligations.PackPlacesLeftAboveRight : Prop :=
  (∀ b : Block, (pack b).toNat = b.left.toNat * 65536 + b.right.toNat) ∧
  (∀ b : Block, unpack (pack b) = b) ∧ (∀ y : Word, pack (unpack y) = y)

/-! ## Key schedule (41_key_schedule.md) -/

/-- R90 -/
def Obligations.KpushAppendsOrFaults : Prop :=
  decodesAs 0x8 (fun w => idxField w = 0 ∧ bField w = 0) (fun w => .kpush (aField w)) ∧
  (∀ (v : HalfWord) (s : State), s.f = false → s.sealed = true →
    exec (.kpush v) s =
      .next { s with f := true, cause := .keyImm, responses := s.responses ++ [⟨true, 0⟩] }) ∧
  (∀ (v : HalfWord) (s : State), s.f = false → s.sealed = false → s.kn = 10 →
    exec (.kpush v) s =
      .next { s with f := true, cause := .keyLen, responses := s.responses ++ [⟨true, 0⟩] }) ∧
  (∀ (v : HalfWord) (s : State), s.f = false → s.sealed = false → s.kn ≠ 10 → ∃ t : State,
    exec (.kpush v) s = .next t ∧
    t = { s with k := t.k, kn := t.kn, responses := s.responses ++ [⟨false, 0⟩] } ∧
    t.kn.val = s.kn.val + 1 ∧
    ∀ i : Fin 10, t.k[i] = if i.val = s.kn.val then some v else s.k[i]) ∧
  ∀ v, refusedWhenFaulted (.kpush v)

/-- R91 -/
def Obligations.KsealSealsOrFaults : Prop :=
  decodesAs 0x9 (fun w => idxField w = 0 ∧ aField w = 0 ∧ bField w = 0) (fun _ => .kseal) ∧
  (∀ s : State, s.f = false → s.sealed = true →
    exec .kseal s =
      .next { s with f := true, cause := .keyImm, responses := s.responses ++ [⟨true, 0⟩] }) ∧
  (∀ s : State, s.f = false → s.sealed = false → s.kn ≠ 10 →
    exec .kseal s =
      .next { s with f := true, cause := .keyLen, responses := s.responses ++ [⟨true, 0⟩] }) ∧
  (∀ s : State, s.f = false → s.sealed = false → s.kn = 10 →
    exec .kseal s = .next { s with sealed := true, responses := s.responses ++ [⟨false, 0⟩] }) ∧
  refusedWhenFaulted .kseal

/-- R92: from KSEAL until the next reset the key schedule cannot change. -/
def Obligations.SealedKeysNeverChange : Prop :=
  ∀ s t : State, s.sealed = true → s.noResetNext → step s = .next t →
    t.k = s.k ∧ t.kn = s.kn ∧ t.sealed = true

/-- R93, of every command but ENC: two states that differ only in `K` give the same response, and the same next state
but for `K`. ENC is left out: it uses the keys, and its answer is a function of them (R103). -/
def Obligations.KeysAffectNoResponseButEncs : Prop :=
  ∀ (i : Instr) (s : State) (k' : Vector (Option HalfWord) 10), (∀ l r, i ≠ .enc l r) →
    ∃ t t' : State, exec i s = .next t ∧ exec i { s with k := k' } = .next t' ∧
      t' = { t with k := t'.k } ∧ ((∀ v, i ≠ .kpush v) → t'.k = k' ∧ t.k = s.k)

/-! ## Cipher (42_cipher.md) -/

/-- R100, with R9 (U9, log entry 6): the four steps of a round, with the rotation as the library's. -/
def Obligations.RoundFunctionFourSteps : Prop :=
  ∀ (i : Fin 10) (key x y : HalfWord),
    (rf i key ⟨x, y⟩).left = y ^^^ x ∧
    (i.val ≤ 8 → (rf i key ⟨x, y⟩).right = x.rotateLeft ((y ^^^ x).toNat % 16) ^^^ key) ∧
    (i.val = 9 → (rf i key ⟨x, y⟩).right = x.rotateLeft ((y ^^^ x).toNat % 16) + key)

/-- R107: the inverse of one round, on both sides. -/
def Obligations.RoundHasStatedInverse : Prop :=
  ∀ (i : Fin 10) (key : HalfWord) (b c : Block),
    rf i key b = c ↔
      b.left = rotl16 (if i.val ≤ 8 then xor16 c.right key else sub16 c.right key)
        (BitVec.ofNat 4 ((16 - (lowNibble c.left).toNat) % 16)) ∧
      b.right = xor16 c.left b.left

/-- R107: each round for each key, and the ten-round encryption for each key schedule, is a bijection on Blocks. -/
def Obligations.EncryptionIsBijective : Prop :=
  (∀ (i : Fin 10) (key : HalfWord), Function.Bijective fun b => rf i key b) ∧
  ∀ ks : KeySchedule, Function.Bijective fun p => ciphertext ks p

/-- R103: on a sealed instance ENC writes the eleven entries, each from the one before by its round and key, and
answers the last; unsealed it raises KEYLEN. -/
def Obligations.EncWritesTheTrajectory : Prop :=
  decodesAs 0xA (fun w => idxField w = 0) (fun w => .enc (aField w) (bField w)) ∧
  (∀ (l r : HalfWord) (s : State), s.f = false → s.sealed = false →
    exec (.enc l r) s =
      .next { s with f := true, cause := .keyLen, responses := s.responses ++ [⟨true, 0⟩] }) ∧
  (∀ (l r : HalfWord) (s : State), s.f = false → s.sealed = true → ∃ tr : Trajectory,
    exec (.enc l r) s =
      .next { s with t := some tr, tv := true, responses := s.responses ++ [⟨false, pack tr[10]⟩] } ∧
    tr[0] = ⟨l, r⟩ ∧
    ∀ (i : Fin 10) (key : HalfWord), s.k[i] = some key → tr[i.val + 1] = rf i key tr[i.val]) ∧
  ∀ l r, refusedWhenFaulted (.enc l r)

/-- R105 -/
def Obligations.RdtAnswersTheEntry : Prop :=
  decodesAs 0xB (fun w => aField w = 0 ∧ bField w = 0) (fun w => .rdt (idxField w)) ∧
  (∀ (n : Nibble) (s : State), s.f = false → (10 < n.toNat ∨ s.tv = false) →
    exec (.rdt n) s =
      .next { s with f := true, cause := .trajLen, responses := s.responses ++ [⟨true, 0⟩] }) ∧
  (∀ (n : Nibble) (s : State), s.f = false → n.toNat ≤ 10 → s.tv = true → ∃ y : Word,
    exec (.rdt n) s = .next { s with responses := s.responses ++ [⟨false, y⟩] } ∧
    ∀ (tr : Trajectory) (j : Fin 11), s.t = some tr → j.val = n.toNat → y = pack tr[j]) ∧
  ∀ n, refusedWhenFaulted (.rdt n)

/-- R48 (a), R105: an RDT after an ENC answers that ENC's trajectory: entry 0 is its plaintext, entry 10 what it
answered, and every entry the one it wrote. -/
def Obligations.RdtAfterEncReadsThatTrajectory : Prop :=
  ∀ (l r : HalfWord) (s : State), s.f = false → s.sealed = true → ∃ (t : State) (tr : Trajectory),
    exec (.enc l r) s = .next t ∧ t.t = some tr ∧ tr[0] = ⟨l, r⟩ ∧
    t.responses = s.responses ++ [⟨false, pack tr[10]⟩] ∧
    ∀ (n : Nibble) (j : Fin 11), j.val = n.toNat →
      exec (.rdt n) t = .next { t with responses := t.responses ++ [⟨false, pack tr[j]⟩] }

/-- R46, R104: ENC with the same operands is idempotent. -/
def Obligations.EncIsIdempotent : Prop :=
  ∀ (l r : HalfWord) (s : State), s.f = false → s.sealed = true → ∃ (t : State) (y : Word),
    exec (.enc l r) s = .next t ∧ t.responses = s.responses ++ [⟨false, y⟩] ∧
    exec (.enc l r) t = .next { t with responses := t.responses ++ [⟨false, y⟩] }

/-- R104: from a state that meets the invariants, a step leaves in `T` a trajectory of the keys in `K`. -/
def Obligations.StepKeepsTrajectoryRounds : Prop :=
  ∀ s t : State, s.Inv → s.TrajectoryInv → step s = .next t → t.TrajectoryInv

/-- R104, last row: each left half is the XOR of the halves before it. -/
def Obligations.LeftHalfIsXorOfHalves : Prop :=
  ∀ (ks : KeySchedule) (p : Block) (n : Fin 10),
    (trajectory ks p)[n.val + 1].left
      = xor16 (trajectory ks p)[n.val].left (trajectory ks p)[n.val].right

/-- R106: one round in three ALU commands. -/
def Obligations.RoundRebuiltByAluCommands : Prop :=
  ∀ (i : Fin 10) (key x y : HalfWord) (s : State), s.f = false →
    ∃ (y1 x1 x2 : HalfWord) (t1 t2 : State),
      exec (.xor y x) s = .next t1 ∧ t1 = { s with responses := s.responses ++ [⟨false, zext32 y1⟩] } ∧
      exec (.rol x (y1 &&& 0x000F)) t1 = .next t2 ∧
      t2 = { t1 with responses := t1.responses ++ [⟨false, zext32 x1⟩] } ∧
      exec (if i.val ≤ 8 then .xor x1 key else .add x1 key) t2
        = .next { t2 with responses := t2.responses ++ [⟨false, zext32 x2⟩] } ∧
      rf i key ⟨x, y⟩ = ⟨y1, x2⟩

/-! ## Status and system (10_state.md, 43_system.md) -/

/-- R28: every field of `STATUS` in its place, every other bit zero. -/
def Obligations.StatusFieldsInPlace : Prop :=
  ∀ s : State,
    (statusWord s).getLsbD 0 = s.sealed ∧ (statusWord s).getLsbD 1 = s.tv ∧
    (statusWord s).getLsbD 2 = s.f ∧ (statusWord s).getLsbD 3 = false ∧
    (statusWord s).toNat = s.sealed.toNat + 2 * s.tv.toNat + 4 * s.f.toNat + 16 * s.kn.val
      + 256 * (causeCode s.cause).toNat ∧
    ((statusWord s).extractLsb' 4 4).toNat = s.kn.val ∧
    (statusWord s).extractLsb' 8 4 = causeCode s.cause ∧
    (statusWord s).extractLsb' 12 20 = 0

/-- R120, R155: RDS answers `STATUS` in every phase and changes no state; a malformed RDS word is illegal. -/
def Obligations.RdsAnswersStatusInEveryPhase : Prop :=
  decodesAs 0xC (fun w => idxField w = 0 ∧ aField w = 0 ∧ bField w = 0) (fun _ => .rds) ∧
  (∀ s : State, exec .rds s = .next { s with responses := s.responses ++ [⟨false, statusWord s⟩] }) ∧
  (∀ s : State, step (issueNext 0xC000000000 s)
    = .next { s with responses := s.responses ++ [⟨false, statusWord s⟩] })

/-- R20's column "written by": which commands can change which element. -/
def Obligations.ElementsWrittenOnlyByTheirCommands : Prop :=
  ∀ (i : Instr) (s t : State), exec i s = .next t →
    ((∀ v, i ≠ .kpush v) → t.k = s.k ∧ t.kn = s.kn) ∧
    (i ≠ .kseal → t.sealed = s.sealed) ∧
    ((∀ l r, i ≠ .enc l r) → t.t = s.t ∧ t.tv = s.tv) ∧
    (t.f = s.f → t.cause = s.cause) ∧
    (t.f ≠ s.f → t = { s with f := true, cause := t.cause, responses := s.responses ++ [⟨true, 0⟩] }) ∧
    t.pending = s.pending

/-! ## Faults and phases (60_exceptions.md) -/

/-- R152: the codes, and exactly when each cause is raised. -/
def Obligations.EachCauseExactlyWhenItsConditionHolds : Prop :=
  (causeCode .none = 0 ∧ causeCode .keyLen = 1 ∧ causeCode .rotAmt = 2 ∧ causeCode .trajLen = 3 ∧
    causeCode .keyImm = 4 ∧ causeCode .illCmd = 5) ∧
  ∀ (w : CommandWord) (s : State), s.f = false → s.cause = .none → ∃ t : State,
    step (issueNext w s) = .next t ∧
    (t.cause = .illCmd ↔ wellFormedWord w = false) ∧
    (t.cause = .keyImm ↔ s.sealed = true ∧ ((∃ v, decode w = .ok (.kpush v)) ∨ decode w = .ok .kseal)) ∧
    (t.cause = .keyLen ↔ s.sealed = false ∧
      ((∃ v, decode w = .ok (.kpush v)) ∧ s.kn = 10 ∨ decode w = .ok .kseal ∧ s.kn ≠ 10 ∨
        ∃ l r, decode w = .ok (.enc l r))) ∧
    (t.cause = .rotAmt ↔ ∃ a n, decode w = .ok (.rol a n) ∧ 15 < n.toNat) ∧
    (t.cause = .trajLen ↔ ∃ n, decode w = .ok (.rdt n) ∧ (10 < n.toNat ∨ s.tv = false))

/-- R153: a command that faults writes `F` and `CAUSE` and nothing else, and answers FLT = 1, Y = 0; one that does not
leaves them. -/
def Obligations.FaultsArePrecise : Prop :=
  ∀ (w : CommandWord) (s : State), s.f = false → ∃ (t : State) (r : Response),
    step (issueNext w s) = .next t ∧ t.responses = s.responses ++ [r] ∧
    (r.flt = true → r.y = 0 ∧ t.cause ≠ .none ∧
      t = { s with f := true, cause := t.cause, responses := s.responses ++ [⟨true, 0⟩] }) ∧
    (r.flt = false → t.f = false ∧ t.cause = s.cause)

/-- R154, R155: while `F = 1` every word but a well-formed RDS is refused, and no state changes. -/
def Obligations.FaultedStateRefusesAllButRds : Prop :=
  (∀ (w : CommandWord) (s : State), s.f = true → w ≠ 0xC000000000 →
    step (issueNext w s) = .next { s with responses := s.responses ++ [⟨true, 0⟩] }) ∧
  (∀ s : State, s.f = true → step (issueNext 0xC000000000 s)
    = .next { s with responses := s.responses ++ [⟨false, statusWord s⟩] } ∧
    (statusWord s).getLsbD 2 = true ∧ (statusWord s).extractLsb' 8 4 = causeCode s.cause) ∧
  (∀ (i : Instr) (s : State), s.f = true → i ≠ .rds →
    exec i s = .next { s with responses := s.responses ++ [⟨true, 0⟩] })

/-- R156: only reset leaves the faulted state, and it discards the key schedule and the trajectory. -/
def Obligations.OnlyResetLeavesTheFaultedState : Prop :=
  (∀ s t : State, s.f = true → s.noResetNext → step s = .next t → sameElements s t) ∧
  (∀ (s : State) (rest : List HostAction), s.pending = .reset :: rest → ∃ t : State,
    step s = .next t ∧ t.f = false ∧ t.cause = .none ∧ t.t = none ∧ ∀ i : Fin 10, t.k[i] = none)

/-- R162: the transitions between phases. -/
def Obligations.PhaseTransitions : Prop :=
  ∀ s t : State, step s = .next t →
    (s.pending.head? = some .reset → phase t = .load) ∧
    (s.noResetNext → phase s = .faulted → phase t = .faulted) ∧
    (s.noResetNext → phase s = .sealed → phase t = .sealed ∨ phase t = .faulted) ∧
    (phase s = .load → phase t = .sealed →
      s.kn = 10 ∧ s.pending.head? = some (.issue (encode .kseal)))

/-! ## Reset, runs, the whole machine (10_state.md R33, 70_reset_and_hazards.md) -/

/-- R33 -/
def Obligations.StateAfterReset : Prop :=
  State.reset.kn = 0 ∧ State.reset.sealed = false ∧ State.reset.tv = false ∧ State.reset.f = false ∧
  State.reset.cause = .none ∧ statusWord State.reset = 0 ∧
  (∀ i : Fin 10, State.reset.k[i] = none) ∧ State.reset.t = none

/-- R170: asserting reset gives the reset state, phase LOAD, and no response. That the host's remaining actions and the
responses given stay is the model's choice (log entry 1). -/
def Obligations.ResetGivesTheResetState : Prop :=
  ∀ (s : State) (rest : List HostAction), s.pending = .reset :: rest → ∃ t : State,
    step s = .next t ∧ t = { State.reset with pending := rest, responses := s.responses } ∧ phase t = .load

/-- R22, R23, R25, R27, R33, R162: the invariants of the elements, kept by every step. -/
def Obligations.StepKeepsTheInvariants : Prop :=
  ∀ s t : State, s.Inv → step s = .next t → t.Inv

/-- They hold after reset. -/
def Obligations.InvariantsHoldAfterReset : Prop :=
  State.reset.Inv ∧ State.reset.TrajectoryInv

/-- R177, R182: every step answers a next state, whatever the state; so does every command. -/
def Obligations.EveryStepAnswers : Prop :=
  (∀ s : State, ∃ t, step s = .next t) ∧ ∀ (i : Instr) (s : State), ∃ t, exec i s = .next t

/-- R61: every command word gives exactly one response, with Y = 0 whenever FLT = 1; the response word is FLT above Y. -/
def Obligations.OneResponsePerCommand : Prop :=
  (∀ (w : CommandWord) (s : State), ∃ (t : State) (r : Response),
    step (issueNext w s) = .next t ∧ t.responses = s.responses ++ [r] ∧ t.pending = s.pending ∧
    (r.flt = true → r.y = 0)) ∧
  (∀ r : Response, (responseWord r).getLsbD 32 = r.flt ∧ (responseWord r).extractLsb' 0 32 = r.y)

/-- The model's choice (log entry 4): while the host presents nothing, nothing changes. -/
def Obligations.NothingPresentedChangesNothing : Prop :=
  ∀ s : State, s.pending = [] → step s = .next s

/-- R178: the response to a command and the next state depend on the elements and the word only, not on what else the
host has to do or has been told. -/
def Obligations.ResponseDependsOnElementsAndWord : Prop :=
  ∀ (w : CommandWord) (s s' : State), sameElements s s' → ∃ (t t' : State) (r : Response),
    step (issueNext w s) = .next t ∧ step (issueNext w s') = .next t' ∧ sameElements t t' ∧
    t.responses = s.responses ++ [r] ∧ t'.responses = s'.responses ++ [r]

/-- R163, R178: two instances in equal states answer equal sequences of actions equally. -/
def Obligations.EqualInstancesAnswerEqually : Prop :=
  ∀ (n : Nat) (s s' : State), sameElements s s' → s.pending = s'.pending →
    ∃ (t t' : State) (rs : List Response),
      Sys2Proof.core.run n s = .next t ∧ Sys2Proof.core.run n s' = .next t' ∧ sameElements t t' ∧
      t.responses = s.responses ++ rs ∧ t'.responses = s'.responses ++ rs

/-- R179: over any number of steps without a reset, some response has FLT = 1 exactly when `STATUS[2] = 1`, if it was so
at the start. -/
def Obligations.RunGoneWrongExactlyWhenLatched : Prop :=
  ∀ (n : Nat) (s t : State), (∀ a ∈ s.pending, a ≠ .reset) →
    (s.goneWrong ↔ (statusWord s).getLsbD 2 = true) →
    Sys2Proof.core.run n s = .next t → (t.goneWrong ↔ (statusWord t).getLsbD 2 = true)

/-- R182: the machine is the one-page transition function, for every state and all 2^40 words. -/
def Obligations.MachineIsTheOnePageFunction : Prop :=
  ∀ (w : CommandWord) (s : State),
    step (issueNext w s) =
      .next { (summaryStep s w).2 with responses := s.responses ++ [(summaryStep s w).1] }

/-! ## The host's side (30_encoding.md R70, 45_host_reference.md) -/

/-- R70: what each pseudo-instruction computes, issued through the machine; a bound name then stands for the result. -/
def Obligations.PseudoInstructionsCompute : Prop :=
  ∀ (a b : HalfWord) (m : Nat) (n : AsmName) (env : AsmEnv) (s : State), s.f = false →
    (∃ h, (expandPseudo m (some n) .not [.lit a]).bind (runLines · (env, s)) = some h ∧
      operandValue h.1 (.low n) = some (a ^^^ 0xFFFF)) ∧
    (∃ h, (expandPseudo m (some n) .neg [.lit a]).bind (runLines · (env, s)) = some h ∧
      operandValue h.1 (.low n) = some (sub16 0 a)) ∧
    (∃ h, (expandPseudo m (some n) .sub [.lit a, .lit b]).bind (runLines · (env, s)) = some h ∧
      operandValue h.1 (.low n) = some (sub16 a b)) ∧
    (∀ c d : HalfWord, ∃ t : State,
      (expandPseudo m none .bxor [.lit a, .lit b, .lit c, .lit d]).bind (runLines · (env, s)) = some (env, t) ∧
      t = { s with responses := s.responses ++
        [⟨false, zext32 (bxor ⟨a, b⟩ ⟨c, d⟩).left⟩, ⟨false, zext32 (bxor ⟨a, b⟩ ⟨c, d⟩).right⟩] })

/-- R70, R173: KLOAD on an instance right after reset loads and seals the ten keys. -/
def Obligations.KloadLoadsAndSeals : Prop :=
  ∀ (ks : KeySchedule) (m : Nat) (env : AsmEnv) (s : State),
    s.f = false → s.sealed = false → s.kn = 0 →
    ∃ t : State, (expandPseudo m none .kload (ks.toList.map .lit)).bind (runLines · (env, s)) = some (env, t) ∧
      t.kn = 10 ∧ t.sealed = true ∧ (∀ i : Fin 10, t.k[i] = some ks[i]) ∧
      t.f = false ∧ t.t = s.t ∧ t.tv = s.tv

/-- R140: equal halves of `D9`, whatever their weight, give equal left halves of the ciphertexts; so every right pair
passes the filter; not every sampled pair (R132: `P2 = P1 XOR Delta0`) that passes is a right pair. -/
def Obligations.FilterKeepsEveryRightPair : Prop :=
  (∀ (ks : KeySchedule) (p q : Block),
    (bxor (trajectory ks p)[9] (trajectory ks q)[9]).left = (bxor (trajectory ks p)[9] (trajectory ks q)[9]).right →
    (ciphertext ks p).left = (ciphertext ks q).left) ∧
  (∀ (ks : KeySchedule) (p q : Block),
    isRightPair (trajectory ks p, trajectory ks q) = true →
    passesFilter (trajectory ks p, trajectory ks q) = true) ∧
  ∃ (ks : KeySchedule) (p : Block), passesFilter (encryptPair ks p) = true ∧ isRightPair (encryptPair ks p) = false

/-- R141: for a right pair and the last key the metric is exactly 1. -/
def Obligations.RightPairMetricIsOne : Prop :=
  ∀ (ks : KeySchedule) (p q : Block),
    isRightPair (trajectory ks p, trajectory ks q) = true →
    metric (trajectory ks p)[10].right (trajectory ks q)[10].right ks[9] = 1

/-- R142: the metric cannot see bit 15 of the key, so the minimum is attained twice and the recovered key always has it clear. -/
def Obligations.TopKeyBitIsInvisible : Prop :=
  (∀ n0 n1 key : HalfWord, metric n0 n1 (xor16 key 0x8000) = metric n0 n1 key) ∧
  (∀ (pool : List TrajectoryPair) (key : HalfWord), keyWeight pool (xor16 key 0x8000) = keyWeight pool key) ∧
  (∀ (pool : List TrajectoryPair) (key : HalfWord), (∀ j, keyWeight pool key ≤ keyWeight pool j) →
    xor16 key 0x8000 ≠ key ∧ ∀ j, keyWeight pool (xor16 key 0x8000) ≤ keyWeight pool j) ∧
  (∀ pool : List TrajectoryPair, (recoveredKey pool).toNat < 0x8000)

/-- R137: the least key of minimum weight. -/
def Obligations.RecoveredKeyIsLeastMinimum : Prop :=
  ∀ pool : List TrajectoryPair,
    (∀ j : HalfWord, keyWeight pool (recoveredKey pool) ≤ keyWeight pool j) ∧
    (∀ key : HalfWord, (∀ j : HalfWord, keyWeight pool key ≤ keyWeight pool j) →
      (recoveredKey pool).toNat ≤ key.toNat)

/-- R138, R135: the report of a pool. Besides the recovered key and the two counts it gives the best of the other keys with
its gap, always 0 by R142, and the best of the keys that differ in the low 15 bits with its gap (the model's choice, log
entry 16); an empty pool reports the key 0 with gaps 0. -/
def Obligations.ReportSurfacesConfidence : Prop :=
  (∀ pool : List TrajectoryPair,
    (recoveryReport pool).recovered = recoveredKey pool ∧
    (recoveryReport pool).poolSize = pool.length ∧
    (recoveryReport pool).rightPairs = some (pool.countP isRightPair) ∧
    (∃ key, (recoveryReport pool).secondBest = some (key, 0) ∧ key ≠ recoveredKey pool ∧
      keyWeight pool key = keyWeight pool (recoveredKey pool)) ∧
    ∃ key gap, (recoveryReport pool).rival = some (key, gap) ∧
      key.extractLsb' 0 15 ≠ (recoveredKey pool).extractLsb' 0 15 ∧
      keyWeight pool key = keyWeight pool (recoveredKey pool) + gap ∧
      ∀ j : HalfWord, j.extractLsb' 0 15 ≠ (recoveredKey pool).extractLsb' 0 15 → keyWeight pool key ≤ keyWeight pool j) ∧
  (recoveryReport []).recovered = 0 ∧ (recoveryReport []).poolSize = 0 ∧
    (recoveryReport []).secondBest = some (1, 0) ∧ (recoveryReport []).rival = some (1, 0)

/-- R143: one trial in commands, from any state, assembles to its end and reports what the reference procedure reports;
with the diagnostic on, the whole report of R138. It leaves the instance sealed and not faulted. -/
def Obligations.TrialByCommandsIsTheReference : Prop :=
  ∀ (diag : Bool) (ks : KeySchedule) (ps : List Block) (s : State), ∃ (r : RecoveryReport) (t : State),
    trialByCommands diag ks ps s = some (r, t) ∧ t.f = false ∧ t.sealed = true ∧
    r.recovered = recoveredKey (candidatePool ks ps) ∧
    r = { recoveryReport (candidatePool ks ps) with rightPairs := r.rightPairs } ∧
    (diag = true → r = recoveryReport (candidatePool ks ps)) ∧ (diag = false → r.rightPairs = none)
end

