-- ==== Sys2Proof/Laws/Encoding.lean ====
section
/-! SUPPORT. The fields of a command word, and what the match and mask columns of R65 test. -/

namespace Sys2Proof

/-! ## Fields as numbers -/

theorem opField_toNat (w : CommandWord) : (opField w).toNat = w.toNat / 2 ^ 36 % 2 ^ 4 := by
  simp [opField, Nat.shiftRight_eq_div_pow]

theorem idxField_toNat (w : CommandWord) : (idxField w).toNat = w.toNat / 2 ^ 32 % 2 ^ 4 := by
  simp [idxField, Nat.shiftRight_eq_div_pow]

theorem aField_toNat (w : CommandWord) : (aField w).toNat = w.toNat / 2 ^ 16 % 2 ^ 16 := by
  simp [aField, Nat.shiftRight_eq_div_pow]

theorem bField_toNat (w : CommandWord) : (bField w).toNat = w.toNat % 2 ^ 16 := by
  simp [bField]

theorem assembleFields_toNat (op idx : Nibble) (a b : HalfWord) :
    (assembleFields op idx a b).toNat
      = op.toNat * 2 ^ 36 + idx.toNat * 2 ^ 32 + a.toNat * 2 ^ 16 + b.toNat := by
  rw [assembleFields, BitVec.toNat_ofNat, Nat.mod_eq_of_lt]
  omega

/-! ## The fields of an assembled word -/

@[simp] theorem opField_assembleFields (op idx : Nibble) (a b : HalfWord) :
    opField (assembleFields op idx a b) = op := by
  apply BitVec.eq_of_toNat_eq
  rw [opField_toNat, assembleFields_toNat]
  omega

@[simp] theorem idxField_assembleFields (op idx : Nibble) (a b : HalfWord) :
    idxField (assembleFields op idx a b) = idx := by
  apply BitVec.eq_of_toNat_eq
  rw [idxField_toNat, assembleFields_toNat]
  omega

@[simp] theorem aField_assembleFields (op idx : Nibble) (a b : HalfWord) :
    aField (assembleFields op idx a b) = a := by
  apply BitVec.eq_of_toNat_eq
  rw [aField_toNat, assembleFields_toNat]
  omega

@[simp] theorem bField_assembleFields (op idx : Nibble) (a b : HalfWord) :
    bField (assembleFields op idx a b) = b := by
  apply BitVec.eq_of_toNat_eq
  rw [bField_toNat, assembleFields_toNat]
  omega

/-- R60: a command word is its four fields. -/
theorem assembleFields_fields (w : CommandWord) :
    assembleFields (opField w) (idxField w) (aField w) (bField w) = w := by
  apply BitVec.eq_of_toNat_eq
  rw [assembleFields_toNat, opField_toNat, idxField_toNat, aField_toNat, bField_toNat]
  omega

/-- Two words with equal fields are equal. -/
theorem commandWord_ext {v w : CommandWord} (ho : opField v = opField w) (hi : idxField v = idxField w)
    (ha : aField v = aField w) (hb : bField v = bField w) : v = w := by
  rw [← assembleFields_fields v, ← assembleFields_fields w, ho, hi, ha, hb]

/-! ## Masks (R65): fields of a masked word -/

theorem opField_and (v w : CommandWord) : opField (v &&& w) = opField v &&& opField w := by
  simp [opField, BitVec.extractLsb'_and]

theorem idxField_and (v w : CommandWord) : idxField (v &&& w) = idxField v &&& idxField w := by
  simp [idxField, BitVec.extractLsb'_and]

theorem aField_and (v w : CommandWord) : aField (v &&& w) = aField v &&& aField w := by
  simp [aField, BitVec.extractLsb'_and]

theorem bField_and (v w : CommandWord) : bField (v &&& w) = bField v &&& bField w := by
  simp [bField, BitVec.extractLsb'_and]

/-- `w AND mask = match`, field by field. -/
theorem masked_iff (w mask p : CommandWord) :
    w &&& mask = p ↔
      opField w &&& opField mask = opField p ∧ idxField w &&& idxField mask = idxField p ∧
      aField w &&& aField mask = aField p ∧ bField w &&& bField mask = bField p := by
  constructor
  · rintro rfl
    exact ⟨(opField_and _ _).symm, (idxField_and _ _).symm, (aField_and _ _).symm, (bField_and _ _).symm⟩
  · rintro ⟨ho, hi, ha, hb⟩
    apply commandWord_ext
    · rw [opField_and, ho]
    · rw [idxField_and, hi]
    · rw [aField_and, ha]
    · rw [bField_and, hb]

/-! ## What each opcode decodes to (R65, R66), one lemma a row -/

theorem and_all_ones (v : HalfWord) : v &&& 0xFFFF#16 = v := by
  rw [show 0xFFFF#16 = BitVec.allOnes 16 from rfl, BitVec.and_allOnes]

theorem nibble_and_all_ones (v : Nibble) : v &&& 0xF#4 = v := by
  rw [show 0xF#4 = BitVec.allOnes 4 from rfl, BitVec.and_allOnes]

/-- The mask test of a row whose fixed fields are those of `mask`, field by field. -/
theorem decode_of_row {w : CommandWord} {r : Row} (hr : rows.find? (fun r => r.op == opField w) = some r) :
    decode w = if w &&& r.mask = r.pattern then .ok (r.operands w) else .error .reservedField := by
  simp [decode, hr]

theorem decode_xor {w : CommandWord} (h : opField w = 0x1) :
    decode w = if idxField w = 0 then .ok (.xor (aField w) (bField w)) else .error .reservedField := by
  rw [decode_of_row (by simp only [h]; rfl)]
  apply if_congr _ rfl rfl
  rw [masked_iff, h]
  simp [opField, idxField, aField, bField, nibble_and_all_ones]

theorem decode_add {w : CommandWord} (h : opField w = 0x2) :
    decode w = if idxField w = 0 then .ok (.add (aField w) (bField w)) else .error .reservedField := by
  rw [decode_of_row (by simp only [h]; rfl)]
  apply if_congr _ rfl rfl
  rw [masked_iff, h]
  simp [opField, idxField, aField, bField, nibble_and_all_ones]

theorem decode_rol {w : CommandWord} (h : opField w = 0x3) :
    decode w = if idxField w = 0 then .ok (.rol (aField w) (bField w)) else .error .reservedField := by
  rw [decode_of_row (by simp only [h]; rfl)]
  apply if_congr _ rfl rfl
  rw [masked_iff, h]
  simp [opField, idxField, aField, bField, nibble_and_all_ones]

theorem decode_popc {w : CommandWord} (h : opField w = 0x4) :
    decode w = if idxField w = 0 ∧ bField w = 0 then .ok (.popc (aField w)) else .error .reservedField := by
  rw [decode_of_row (by simp only [h]; rfl)]
  apply if_congr _ rfl rfl
  rw [masked_iff, h]
  simp [opField, idxField, aField, bField, nibble_and_all_ones, and_all_ones]

theorem decode_kpush {w : CommandWord} (h : opField w = 0x8) :
    decode w = if idxField w = 0 ∧ bField w = 0 then .ok (.kpush (aField w)) else .error .reservedField := by
  rw [decode_of_row (by simp only [h]; rfl)]
  apply if_congr _ rfl rfl
  rw [masked_iff, h]
  simp [opField, idxField, aField, bField, nibble_and_all_ones, and_all_ones]

theorem decode_kseal {w : CommandWord} (h : opField w = 0x9) :
    decode w = if idxField w = 0 ∧ aField w = 0 ∧ bField w = 0 then .ok (.kseal) else .error .reservedField := by
  rw [decode_of_row (by simp only [h]; rfl)]
  apply if_congr _ rfl rfl
  rw [masked_iff, h]
  simp [opField, idxField, aField, bField, nibble_and_all_ones, and_all_ones]

theorem decode_enc {w : CommandWord} (h : opField w = 0xa) :
    decode w = if idxField w = 0 then .ok (.enc (aField w) (bField w)) else .error .reservedField := by
  rw [decode_of_row (by simp only [h]; rfl)]
  apply if_congr _ rfl rfl
  rw [masked_iff, h]
  simp [opField, idxField, aField, bField, nibble_and_all_ones]

theorem decode_rdt {w : CommandWord} (h : opField w = 0xb) :
    decode w = if aField w = 0 ∧ bField w = 0 then .ok (.rdt (idxField w)) else .error .reservedField := by
  rw [decode_of_row (by simp only [h]; rfl)]
  apply if_congr _ rfl rfl
  rw [masked_iff, h]
  simp [opField, idxField, aField, bField, nibble_and_all_ones, and_all_ones]

theorem decode_rds {w : CommandWord} (h : opField w = 0xc) :
    decode w = if idxField w = 0 ∧ aField w = 0 ∧ bField w = 0 then .ok (.rds) else .error .reservedField := by
  rw [decode_of_row (by simp only [h]; rfl)]
  apply if_congr _ rfl rfl
  rw [masked_iff, h]
  simp [opField, idxField, aField, bField, nibble_and_all_ones, and_all_ones]

theorem decode_reserved {w : CommandWord} (h : opField w ∈ reservedOpcodes) :
    decode w = .error .reservedOpcode := by
  have hn : rows.find? (fun r => r.op == opField w) = none := by
    generalize opField w = op at h
    revert op
    decide
  simp [decode, hn]

end Sys2Proof
end

