-- ==== Sys2Proof/Laws/State.lean ====
section
/-! SUPPORT. One lemma per field per update of the state (true by `rfl`), and what each shared operation can
answer. -/

namespace Sys2Proof.Machine

/-! ## `answer`: one response is added -/

@[simp] theorem answer_k (s : State) (b : Bool) (y : Word) : (s.answer b y).k = s.k := rfl
@[simp] theorem answer_kn (s : State) (b : Bool) (y : Word) : (s.answer b y).kn = s.kn := rfl
@[simp] theorem answer_sealed (s : State) (b : Bool) (y : Word) : (s.answer b y).sealed = s.sealed := rfl
@[simp] theorem answer_t (s : State) (b : Bool) (y : Word) : (s.answer b y).t = s.t := rfl
@[simp] theorem answer_tv (s : State) (b : Bool) (y : Word) : (s.answer b y).tv = s.tv := rfl
@[simp] theorem answer_f (s : State) (b : Bool) (y : Word) : (s.answer b y).f = s.f := rfl
@[simp] theorem answer_cause (s : State) (b : Bool) (y : Word) : (s.answer b y).cause = s.cause := rfl
@[simp] theorem answer_pending (s : State) (b : Bool) (y : Word) : (s.answer b y).pending = s.pending := rfl
@[simp] theorem answer_responses (s : State) (b : Bool) (y : Word) :
    (s.answer b y).responses = s.responses ++ [⟨b, y⟩] := rfl

/-! ## `applyReset` -/

@[simp] theorem applyReset_k (s : State) : (applyReset s).k = Vector.replicate 10 .none := rfl
@[simp] theorem applyReset_kn (s : State) : (applyReset s).kn = 0 := rfl
@[simp] theorem applyReset_sealed (s : State) : (applyReset s).sealed = false := rfl
@[simp] theorem applyReset_t (s : State) : (applyReset s).t = .none := rfl
@[simp] theorem applyReset_tv (s : State) : (applyReset s).tv = false := rfl
@[simp] theorem applyReset_f (s : State) : (applyReset s).f = false := rfl
@[simp] theorem applyReset_cause (s : State) : (applyReset s).cause = .none := rfl
@[simp] theorem applyReset_pending (s : State) : (applyReset s).pending = s.pending := rfl
@[simp] theorem applyReset_responses (s : State) : (applyReset s).responses = s.responses := rfl

/-! ## `issueNext` -/

@[simp] theorem issueNext_pending (w : CommandWord) (s : State) :
    (issueNext w s).pending = .issue w :: s.pending := rfl
@[simp] theorem issueNext_f (w : CommandWord) (s : State) : (issueNext w s).f = s.f := rfl
@[simp] theorem issueNext_responses (w : CommandWord) (s : State) :
    (issueNext w s).responses = s.responses := rfl

/-! ## How a command ends -/

@[simp] theorem next_inj {s t : State} : (Host.Outcome.next s : Result) = .next t ↔ s = t :=
  ⟨fun h => by cases h; rfl, fun h => by rw [h]⟩

theorem respond_next (y : Word) (s : State) : respond y s = .next (s.answer false y) := rfl

theorem refuse_next (s : State) : refuse s = .next (s.answer true 0) := rfl

theorem raiseFault_next (c : Cause) (s : State) :
    raiseFault c s = .next ({ s with f := true, cause := c }.answer true 0) := rfl

@[simp] theorem unlessFaulted_running {s : State} (h : s.f = false) (r : Result) :
    unlessFaulted s r = r := by simp [unlessFaulted, h]

@[simp] theorem unlessFaulted_faulted {s : State} (h : s.f = true) (r : Result) :
    unlessFaulted s r = refuse s := by simp [unlessFaulted, h]

/-- What a command guarded by the fault latch answers: the refusal while `F = 1`, else its own effect. -/
theorem unlessFaulted_cases {s t : State} {r : Result} (h : unlessFaulted s r = .next t) :
    (s.f = true ∧ t = s.answer true 0) ∨ (s.f = false ∧ r = .next t) := by
  cases hf : s.f with
  | true =>
    rw [unlessFaulted_faulted hf, refuse_next, next_inj] at h
    exact .inl ⟨rfl, h.symm⟩
  | false =>
    rw [unlessFaulted_running hf] at h
    exact .inr ⟨rfl, h⟩

/-- One step takes the next action of the host; with nothing to do it changes nothing. -/
theorem step_idle {s : State} (h : s.pending = []) : step s = .next s := by
  simp [step, takeAction, h]

theorem step_issue {s : State} {w : CommandWord} {rest : List HostAction}
    (h : s.pending = .issue w :: rest) : step s = executeWord w { s with pending := rest } := by
  simp [step, takeAction, h, perform]

theorem step_reset {s : State} {rest : List HostAction} (h : s.pending = .reset :: rest) :
    step s = .next (applyReset { s with pending := rest }) := by
  simp [step, takeAction, h, perform]

/-! ## The response word -/

theorem responseWord_toNat (r : Response) : (responseWord r).toNat = r.flt.toNat * 2 ^ 32 + r.y.toNat := by
  have hy := r.y.isLt
  have hf := Bool.toNat_le r.flt
  rw [responseWord, BitVec.toNat_ofNat, Nat.mod_eq_of_lt]
  calc r.flt.toNat * 2 ^ 32 + r.y.toNat
      < 1 * 2 ^ 32 + 2 ^ 32 := Nat.add_lt_add_of_le_of_lt (Nat.mul_le_mul_right _ hf) hy
    _ = 2 ^ 33 := by norm_num

/-! ## The stores -/

/-- The written entry reads as written. -/
theorem memWriteK_same (k : Vector (Option HalfWord) 10) (i : Fin 10) (v : HalfWord) :
    (memWriteK k i.val v)[i] = .some v := by
  simp [memWriteK]

/-- Every other entry is left alone. -/
theorem memWriteK_other (k : Vector (Option HalfWord) 10) (i j : Fin 10) (v : HalfWord) (h : i ≠ j) :
    (memWriteK k i.val v)[j] = k[j] := by
  have : i.val ≠ j.val := fun e => h (Fin.ext e)
  simp [memWriteK, this]

/-- Appending at index `n` keeps the store's form: exactly the first entries hold a value. -/
theorem memWriteK_keeps_prefix (k : Vector (Option HalfWord) 10) (n : Nat) (v : HalfWord) (hn : n < 10)
    (h : ∀ i : Fin 10, k[i].isSome = true ↔ i.val < n) (i : Fin 10) :
    (memWriteK k n v)[i].isSome = true ↔ i.val < n + 1 := by
  by_cases e : i = ⟨n, hn⟩
  · subst e
    have := memWriteK_same k ⟨n, hn⟩ v
    simp_all
  · have hne : i.val ≠ n := fun x => e (Fin.ext x)
    have := memWriteK_other k ⟨n, hn⟩ i v (fun x => e x.symm)
    simp only at this
    rw [this, h i]
    omega

theorem memReadK_some {k : Vector (Option HalfWord) 10} {i : Fin 10} {v : HalfWord}
    (h : k[i] = .some v) : memReadK k i = v := by
  simp [memReadK, h]

theorem memReadT_some (tr : Trajectory) (i : Fin 11) : memReadT (.some tr) i.val = tr[i] := by
  simp [memReadT]

end Sys2Proof.Machine
end

