-- ==== Sys2Proof/Laws/Exec.lean ====
section
/-! SUPPORT. What each command answers, one equation per check that decides it; then everything one command, and one
command word, can do. -/

namespace Sys2Proof.Machine

/-! ## Equations of the meanings -/

theorem rotAmount_le {n : HalfWord} (h : n.toNat ≤ 15) : rotAmount n = .some (n.setWidth 4) := by
  have : ¬ 15 < n := by rw [BitVec.lt_def]; simpa using h
  rw [rotAmount, if_neg this]

theorem rotAmount_gt {n : HalfWord} (h : 15 < n.toNat) : rotAmount n = .none := by
  have : 15 < n := by rw [BitVec.lt_def]; simpa using h
  rw [rotAmount, if_pos this]

theorem exec_xor {s : State} (hf : s.f = false) (a b : HalfWord) :
    exec (.xor a b) s = .next (s.answer false (zext32 (xor16 a b))) := unlessFaulted_running hf _

theorem exec_add {s : State} (hf : s.f = false) (a b : HalfWord) :
    exec (.add a b) s = .next (s.answer false (zext32 (add16 a b))) := unlessFaulted_running hf _

theorem exec_popc {s : State} (hf : s.f = false) (a : HalfWord) :
    exec (.popc a) s = .next (s.answer false (zext32 (countHalf a))) := unlessFaulted_running hf _

theorem exec_rds (s : State) : exec .rds s = .next (s.answer false (statusWord s)) := rfl

theorem exec_rol_le {s : State} (hf : s.f = false) (a : HalfWord) {n : HalfWord} (hn : n.toNat ≤ 15) :
    exec (.rol a n) s = .next (s.answer false (zext32 (rotl16 a (n.setWidth 4)))) := by
  simp [exec, execRol, hf, rotAmount_le hn, respond]

theorem exec_rol_gt {s : State} (hf : s.f = false) (a : HalfWord) {n : HalfWord} (hn : 15 < n.toNat) :
    exec (.rol a n) s = raiseFault .rotAmt s := by
  simp [exec, execRol, hf, rotAmount_gt hn]

theorem exec_kpush_sealed {s : State} (hf : s.f = false) (v : HalfWord) (hs : s.sealed = true) :
    exec (.kpush v) s = raiseFault .keyImm s := by
  simp [exec, execKpush, hf, hs]

theorem exec_kpush_full {s : State} (hf : s.f = false) (v : HalfWord) (hs : s.sealed = false) (hk : s.kn = 10) :
    exec (.kpush v) s = raiseFault .keyLen s := by
  simp [exec, execKpush, hf, hs, hk]

theorem exec_kpush_room {s : State} (hf : s.f = false) (v : HalfWord) (hs : s.sealed = false) (hk : s.kn ≠ 10) :
    exec (.kpush v) s = .next ({ s with k := memWriteK s.k s.kn.val v, kn := s.kn + 1 }.answer false 0) := by
  simp [exec, execKpush, hf, hs, hk, respond]

theorem exec_kseal_sealed {s : State} (hf : s.f = false) (hs : s.sealed = true) :
    exec .kseal s = raiseFault .keyImm s := by
  simp [exec, execKseal, hf, hs]

theorem exec_kseal_short {s : State} (hf : s.f = false) (hs : s.sealed = false) (hk : s.kn ≠ 10) :
    exec .kseal s = raiseFault .keyLen s := by
  simp [exec, execKseal, hf, hs, hk]

theorem exec_kseal_full {s : State} (hf : s.f = false) (hs : s.sealed = false) (hk : s.kn = 10) :
    exec .kseal s = .next ({ s with sealed := true }.answer false 0) := by
  simp [exec, execKseal, hf, hs, hk, respond]

theorem exec_enc_unsealed {s : State} (hf : s.f = false) (l r : HalfWord) (hs : s.sealed = false) :
    exec (.enc l r) s = raiseFault .keyLen s := by
  simp [exec, execEnc, hf, hs]

theorem exec_enc_sealed {s : State} (hf : s.f = false) (l r : HalfWord) (hs : s.sealed = true) :
    exec (.enc l r) s =
      .next ({ s with t := .some (trajectory (schedule s) ⟨l, r⟩), tv := true }.answer false
        (pack (trajectory (schedule s) ⟨l, r⟩)[10])) := by
  simp [exec, execEnc, hf, hs, respond]

theorem exec_rdt_bad {s : State} (hf : s.f = false) {n : Nibble} (h : 10 < n.toNat ∨ s.tv = false) :
    exec (.rdt n) s = raiseFault .trajLen s := by
  simp only [exec, execRdt, unlessFaulted_running hf]
  by_cases hn : 10 < n
  · rw [if_pos hn]
  · have : s.tv = false := h.resolve_left (by simpa [BitVec.lt_def] using hn)
    rw [if_neg hn, this]
    rfl

theorem exec_rdt_good {s : State} (hf : s.f = false) {n : Nibble} (hn : n.toNat ≤ 10) (ht : s.tv = true) :
    exec (.rdt n) s = .next (s.answer false (pack (memReadT s.t n.toNat))) := by
  have : ¬ 10 < n := by simpa [BitVec.lt_def] using hn
  simp only [exec, execRdt, unlessFaulted_running hf]
  rw [if_neg this, if_pos ht, respond_next]

/-- R80, R154: every command but RDS is refused while `F = 1`. -/
theorem exec_faulted {i : Instr} {s : State} (hf : s.f = true) (hi : i ≠ .rds) : exec i s = refuse s := by
  cases i with
  | rds => exact absurd rfl hi
  | _ => exact unlessFaulted_faulted hf _

/-! ## Everything one command can do -/

/-- The ways a command ends. -/
inductive Effect (i : Instr) (s : State) : State → Prop where
  /-- it answers and changes no element -/
  | answered (y : Word) (h : s.f = false ∨ i = .rds) : Effect i s (s.answer false y)
  /-- it is refused (R154) -/
  | refused (hf : s.f = true) (hi : i ≠ .rds) : Effect i s (s.answer true 0)
  /-- it raises a fault (R153) -/
  | faulted (hf : s.f = false) (c : Cause) (hc : c ≠ .none) (hill : c ≠ .illCmd) :
      Effect i s ({ s with f := true, cause := c }.answer true 0)
  /-- it appends a key (R90) -/
  | pushed (hf : s.f = false) (hs : s.sealed = false) (hk : s.kn ≠ 10) (v : HalfWord) (hi : i = .kpush v) :
      Effect i s ({ s with k := memWriteK s.k s.kn.val v, kn := s.kn + 1 }.answer false 0)
  /-- it seals the schedule (R91) -/
  | sealing (hf : s.f = false) (hs : s.sealed = false) (hk : s.kn = 10) (hi : i = .kseal) :
      Effect i s ({ s with sealed := true }.answer false 0)
  /-- it encrypts (R103) -/
  | encrypted (hf : s.f = false) (hs : s.sealed = true) (l r : HalfWord) (hi : i = .enc l r) :
      Effect i s ({ s with t := .some (trajectory (schedule s) ⟨l, r⟩), tv := true }.answer false
        (pack (trajectory (schedule s) ⟨l, r⟩)[10]))

/-- Every command answers a next state, in one of those ways. -/
theorem exec_effect (i : Instr) (s : State) : ∃ t, exec i s = .next t ∧ Effect i s t := by
  cases hf : s.f with
  | true =>
    by_cases hi : i = .rds
    · exact ⟨_, by rw [hi, exec_rds], .answered _ (.inr hi)⟩
    · exact ⟨_, exec_faulted hf hi, .refused hf hi⟩
  | false =>
    cases i with
    | xor a b => exact ⟨_, exec_xor hf a b, .answered _ (.inl hf)⟩
    | add a b => exact ⟨_, exec_add hf a b, .answered _ (.inl hf)⟩
    | popc a => exact ⟨_, exec_popc hf a, .answered _ (.inl hf)⟩
    | rds => exact ⟨_, exec_rds s, .answered _ (.inl hf)⟩
    | rol a n =>
      rcases Nat.lt_or_ge 15 n.toNat with hn | hn
      · exact ⟨_, exec_rol_gt hf a hn, .faulted hf _ (by decide) (by decide)⟩
      · exact ⟨_, exec_rol_le hf a hn, .answered _ (.inl hf)⟩
    | kpush v =>
      cases hs : s.sealed with
      | true => exact ⟨_, exec_kpush_sealed hf v hs, .faulted hf _ (by decide) (by decide)⟩
      | false =>
        by_cases hk : s.kn = 10
        · exact ⟨_, exec_kpush_full hf v hs hk, .faulted hf _ (by decide) (by decide)⟩
        · exact ⟨_, exec_kpush_room hf v hs hk, .pushed hf hs hk v rfl⟩
    | kseal =>
      cases hs : s.sealed with
      | true => exact ⟨_, exec_kseal_sealed hf hs, .faulted hf _ (by decide) (by decide)⟩
      | false =>
        by_cases hk : s.kn = 10
        · exact ⟨_, exec_kseal_full hf hs hk, .sealing hf hs hk rfl⟩
        · exact ⟨_, exec_kseal_short hf hs hk, .faulted hf _ (by decide) (by decide)⟩
    | enc l r =>
      cases hs : s.sealed with
      | true => exact ⟨_, exec_enc_sealed hf l r hs, .encrypted hf hs l r rfl⟩
      | false => exact ⟨_, exec_enc_unsealed hf l r hs, .faulted hf _ (by decide) (by decide)⟩
    | rdt n =>
      by_cases h : 10 < n.toNat ∨ s.tv = false
      · exact ⟨_, exec_rdt_bad hf h, .faulted hf _ (by decide) (by decide)⟩
      · rw [not_or, Nat.not_lt, Bool.not_eq_false] at h
        exact ⟨_, exec_rdt_good hf h.1 h.2, .answered _ (.inl hf)⟩

/-! ## Everything one command word can do -/

theorem decode_rdsWord : decode rdsWord = .ok .rds := by decide

/-- The word RDS is executed in every state (R120). -/
theorem executeWord_rdsWord (s : State) : executeWord rdsWord s = exec .rds s := by
  cases hf : s.f <;> simp [executeWord, hf, decode_rdsWord]

/-- R154: any other word is refused while `F = 1`. -/
theorem executeWord_faulted {w : CommandWord} {s : State} (hf : s.f = true) (hw : w ≠ rdsWord) :
    executeWord w s = refuse s := by
  simp [executeWord, hf, hw]

/-- R157, check 2 and after. -/
theorem executeWord_legal {w : CommandWord} {i : Instr} {s : State} (hf : s.f = false) (hd : decode w = .ok i) :
    executeWord w s = exec i s := by
  simp [executeWord, hf, hd]

theorem executeWord_illegal {w : CommandWord} {e : Illegal} {s : State} (hf : s.f = false)
    (hd : decode w = .error e) : executeWord w s = raiseFault .illCmd s := by
  simp [executeWord, hf, hd]

end Sys2Proof.Machine
end

