-- ==== Sys2Proof/Laws/Host.lean ====
section
/-! SUPPORT. The host's side: what a line does when its command answers, sequences of lines, and the choice of a best
admitted key. -/

namespace Sys2Proof.Machine

/-! ## Lines -/

theorem runLines_nil (h : AsmEnv × State) : runLines [] h = .some h := rfl

theorem runLines_cons (l : AsmLine) (ls : List AsmLine) (h : AsmEnv × State) :
    runLines (l :: ls) h = (runLine l h).bind (runLines ls) := rfl

theorem runLines_append (ls ms : List AsmLine) (h : AsmEnv × State) :
    runLines (ls ++ ms) h = (runLines ls h).bind (runLines ms) := by
  induction ls generalizing h with
  | nil => rfl
  | cons l ls ih =>
    simp only [List.cons_append, runLines_cons, Option.bind_assoc]
    congr 1
    funext g
    exact ih g

/-- A line whose operands have values and whose command answers binds its name to the last response. -/
theorem runLine_bound {n : AsmName} {op : AsmOp} {os : List AsmOperand} {vs : List HalfWord} {w : CommandWord}
    {env : AsmEnv} {s t : State} {r : Response} (hv : os.mapM (operandValue env) = .some vs)
    (ha : assemble op vs = .some (.issue w)) (hp : perform (.issue w) s = .next t)
    (hr : t.responses = s.responses ++ [r]) :
    runLine ⟨.some n, op, os⟩ (env, s) = .some ((n, r) :: env, t) := by
  simp [runLine, hv, ha, performBound, hp, hr]

/-- A line without a name leaves the names as they were. -/
theorem runLine_unbound {op : AsmOp} {os : List AsmOperand} {vs : List HalfWord} {a : HostAction}
    {env : AsmEnv} {s t : State} (hv : os.mapM (operandValue env) = .some vs)
    (ha : assemble op vs = .some a) (hp : perform a s = .next t) :
    runLine ⟨.none, op, os⟩ (env, s) = .some (env, t) := by
  simp [runLine, hv, ha, performBound, hp]

/-! ## Names -/

@[simp] theorem operandValue_lit (env : AsmEnv) (v : HalfWord) : operandValue env (.lit v) = .some v := rfl

/-- The name just bound. -/
@[simp] theorem operandValue_low_same (n : AsmName) (y : Word) (env : AsmEnv) :
    operandValue ((n, ⟨false, y⟩) :: env) (.low n) = .some (unpack y).right := by
  simp [operandValue]

@[simp] theorem operandValue_high_same (n : AsmName) (y : Word) (env : AsmEnv) :
    operandValue ((n, ⟨false, y⟩) :: env) (.high n) = .some (unpack y).left := by
  simp [operandValue]

/-- Binding one name leaves every other as it was. -/
theorem operandValue_low_other {n m : AsmName} (h : m ≠ n) (r : Response) (env : AsmEnv) :
    operandValue ((m, r) :: env) (.low n) = operandValue env (.low n) := by
  simp [operandValue, h]

theorem operandValue_high_other {n m : AsmName} (h : m ≠ n) (r : Response) (env : AsmEnv) :
    operandValue ((m, r) :: env) (.high n) = operandValue env (.high n) := by
  simp [operandValue, h]

theorem blockValue_same (n : AsmName) (y : Word) (env : AsmEnv) :
    blockValue ((n, ⟨false, y⟩) :: env) n = .some (unpack y) := by
  simp [blockValue]

theorem blockValue_other {n m : AsmName} (h : m ≠ n) (r : Response) (env : AsmEnv) :
    blockValue ((m, r) :: env) n = blockValue env n := by
  simp [blockValue, operandValue_low_other h, operandValue_high_other h]

/-- A HalfWord result comes back as it was. -/
@[simp] theorem unpack_zext32_right (v : HalfWord) : (unpack (zext32 v)).right = v := by
  have := v.isLt
  apply BitVec.eq_of_toNat_eq
  simp [unpack, zext32]
  omega

/-! ## The best admitted key -/

theorem lastKey_eq : lastKey = 65535 := by
  unfold lastKey
  rfl

/-- Every HalfWord is a candidate. -/
theorem toNat_le_lastKey (key : HalfWord) : key.toNat ≤ lastKey := by
  rw [lastKey_eq]
  exact Nat.lt_succ_iff.1 key.isLt

/-- Everything `leastBestWhere` can answer. -/
theorem leastBestWhere_spec (admits : HalfWord → Bool) (weight : HalfWord → Nat) (n : Nat) :
    match leastBestWhere admits weight n with
    | .none => ∀ j, j ≤ n → admits (BitVec.ofNat 16 j) = false
    | .some best => admits best = true ∧ (∃ i, i ≤ n ∧ best = BitVec.ofNat 16 i ∧
        ∀ j, j < i → admits (BitVec.ofNat 16 j) = true → weight best < weight (BitVec.ofNat 16 j)) ∧
        ∀ j, j ≤ n → admits (BitVec.ofNat 16 j) = true → weight best ≤ weight (BitVec.ofNat 16 j) := by
  induction n with
  | zero =>
    cases h : admits 0 with
    | false =>
      have hnone : leastBestWhere admits weight 0 = .none := by
        rw [leastBestWhere, h]; rfl
      rw [hnone]
      intro j hj
      rw [Nat.le_zero.1 hj]
      exact h
    | true =>
      have hsome : leastBestWhere admits weight 0 = .some 0 := by
        rw [leastBestWhere, h]; rfl
      rw [hsome]
      refine ⟨h, ⟨0, le_refl 0, rfl, fun j hj => absurd hj (Nat.not_lt_zero j)⟩, fun j hj _ => ?_⟩
      rw [Nat.le_zero.1 hj]
      exact le_refl _
  | succ n ih =>
    cases hb : leastBestWhere admits weight n with
    | none =>
      rw [hb] at ih
      cases hk : admits (BitVec.ofNat 16 (n + 1)) with
      | false =>
        have hnone : leastBestWhere admits weight (n + 1) = .none := by simp [leastBestWhere, hb, hk]
        rw [hnone]
        intro j hj
        rcases Nat.le_succ_iff.1 hj with hj | rfl
        · exact ih j hj
        · exact hk
      | true =>
        have hsome : leastBestWhere admits weight (n + 1) = .some (BitVec.ofNat 16 (n + 1)) := by
          simp [leastBestWhere, hb, hk]
        rw [hsome]
        refine ⟨hk, ⟨n + 1, le_refl _, rfl, fun j hj ha => ?_⟩, fun j hj ha => ?_⟩
        · exact absurd ha (by simp [ih j (Nat.lt_succ_iff.1 hj)])
        · rcases Nat.le_succ_iff.1 hj with hj | rfl
          · exact absurd ha (by simp [ih j hj])
          · exact le_refl _
    | some best =>
      rw [hb] at ih
      obtain ⟨hbest, ⟨i, hi, rfl, hfirst⟩, hleast⟩ := ih
      by_cases hk : admits (BitVec.ofNat 16 (n + 1)) = true ∧
          weight (BitVec.ofNat 16 (n + 1)) < weight (BitVec.ofNat 16 i)
      · have hsome : leastBestWhere admits weight (n + 1) = .some (BitVec.ofNat 16 (n + 1)) := by
          simp [leastBestWhere, hb, hk.1, hk.2]
        rw [hsome]
        refine ⟨hk.1, ⟨n + 1, le_refl _, rfl, fun j hj ha => ?_⟩, fun j hj ha => ?_⟩
        · exact hk.2.trans_le (hleast j (Nat.lt_succ_iff.1 hj) ha)
        · rcases Nat.le_succ_iff.1 hj with hj | rfl
          · exact (hk.2.trans_le (hleast j hj ha)).le
          · exact le_refl _
      · have hkept : leastBestWhere admits weight (n + 1) = .some (BitVec.ofNat 16 i) := by
          simp only [leastBestWhere, hb]
          exact if_neg (by simpa using hk)
        rw [hkept]
        refine ⟨hbest, ⟨i, by omega, rfl, hfirst⟩, fun j hj ha => ?_⟩
        rcases Nat.le_succ_iff.1 hj with hj | rfl
        · exact hleast j hj ha
        · exact Nat.not_lt.1 fun hlt => hk ⟨ha, hlt⟩

/-- Over all HalfWords: some admitted key gives an answer, which is admitted, of least weight, and least among those. -/
theorem leastBestWhere_all {admits : HalfWord → Bool} (weight : HalfWord → Nat) {key : HalfWord}
    (h : admits key = true) :
    ∃ best, leastBestWhere admits weight lastKey = .some best ∧ admits best = true ∧
      (∀ j, admits j = true → weight best ≤ weight j) ∧
      ∀ j, admits j = true → j.toNat < best.toNat → weight best < weight j := by
  have hmax : ∀ j : HalfWord, j.toNat ≤ lastKey := toNat_le_lastKey
  have hback : ∀ j : HalfWord, BitVec.ofNat 16 j.toNat = j := fun j => by simp
  have hspec := leastBestWhere_spec admits weight lastKey
  cases hb : leastBestWhere admits weight lastKey with
  | none =>
    rw [hb] at hspec
    have := hspec key.toNat (hmax key)
    rw [hback, h] at this
    cases this
  | some best =>
    rw [hb] at hspec
    obtain ⟨hadm, ⟨i, hi, rfl, hfirst⟩, hleast⟩ := hspec
    refine ⟨_, rfl, hadm, fun j hj => ?_, fun j hj hj' => ?_⟩
    · have := hleast j.toNat (hmax j)
      rw [hback] at this
      exact this hj
    · have hi' : (BitVec.ofNat 16 i).toNat = i :=
        by
        rw [lastKey_eq] at hi
        simp
        omega
      have := hfirst j.toNat (hi' ▸ hj')
      rw [hback] at this
      exact this hj

end Sys2Proof.Machine
end

