-- ==== Sys2Proof/Laws/PerInstr.lean ====
section
/-! SUPPORT. Statements about every command as syntax, one lemma a constructor: the word an encoder writes is a
well-formed word of R66, and its opcode is the one R65 gives the command. -/

namespace Sys2Proof

/-- `wellFormedWord` in terms of the decoder's fields. -/
theorem wellFormedWord_fields (w : CommandWord) :
    wellFormedWord w =
      (!reservedOpcodes.contains (opField w) && (idxField w == 0 || opField w == 0xB)
        && (aField w == 0 || !([0x9, 0xB, 0xC] : List Nibble).contains (opField w))
        && (bField w == 0 || !([0x4, 0x8, 0x9, 0xB, 0xC] : List Nibble).contains (opField w))) := rfl

/-! ## The word is well formed -/

def Laws.EncodeWellFormed.Statement (i : Instr) : Prop := wellFormedWord (encode i) = true

theorem Laws.EncodeWellFormed.xor (a b : HalfWord) : Laws.EncodeWellFormed.Statement (.xor a b) := by
  simp [Statement, wellFormedWord_fields, encode, reservedOpcodes]
theorem Laws.EncodeWellFormed.add (a b : HalfWord) : Laws.EncodeWellFormed.Statement (.add a b) := by
  simp [Statement, wellFormedWord_fields, encode, reservedOpcodes]
theorem Laws.EncodeWellFormed.rol (a n : HalfWord) : Laws.EncodeWellFormed.Statement (.rol a n) := by
  simp [Statement, wellFormedWord_fields, encode, reservedOpcodes]
theorem Laws.EncodeWellFormed.popc (a : HalfWord) : Laws.EncodeWellFormed.Statement (.popc a) := by
  simp [Statement, wellFormedWord_fields, encode, reservedOpcodes]
theorem Laws.EncodeWellFormed.kpush (v : HalfWord) : Laws.EncodeWellFormed.Statement (.kpush v) := by
  simp [Statement, wellFormedWord_fields, encode, reservedOpcodes]
theorem Laws.EncodeWellFormed.kseal : Laws.EncodeWellFormed.Statement .kseal := by
  simp [Statement, wellFormedWord_fields, encode, reservedOpcodes]
theorem Laws.EncodeWellFormed.enc (l r : HalfWord) : Laws.EncodeWellFormed.Statement (.enc l r) := by
  simp [Statement, wellFormedWord_fields, encode, reservedOpcodes]
theorem Laws.EncodeWellFormed.rdt (i : Nibble) : Laws.EncodeWellFormed.Statement (.rdt i) := by
  simp [Statement, wellFormedWord_fields, encode, reservedOpcodes]
theorem Laws.EncodeWellFormed.rds : Laws.EncodeWellFormed.Statement .rds := by
  simp [Statement, wellFormedWord_fields, encode, reservedOpcodes]

end Sys2Proof
end

