-- ==== Sys2Proof/Laws/Rotate.lean ====
section
/-! SUPPORT. The rotation of R9 is the library's rotation. -/

namespace Sys2Proof.Machine

/-- Two HalfWords with equal bits are equal. -/
theorem halfWord_ext {a b : HalfWord} (h : ∀ i, i < 16 → a.getLsbD i = b.getLsbD i) : a = b :=
  BitVec.eq_of_getLsbD_eq h

/-- The two terms of R9's formula occupy disjoint bits. -/
theorem rotl16_eq_rotateLeft (a : HalfWord) (s : Nibble) : rotl16 a s = a.rotateLeft s.toNat := by
  unfold rotl16
  split
  · next h =>
    subst h
    have h0 : a >>> 16 = 0#16 := BitVec.ushiftRight_eq_zero (by decide)
    simp [BitVec.rotateLeft, BitVec.rotateLeftAux, h0]
  · next h =>
    have hs : s.toNat < 16 := s.isLt
    have ha : a.toNat < 2 ^ 16 := a.isLt
    have hsplit : (2 : Nat) ^ 16 = 2 ^ (16 - s.toNat) * 2 ^ s.toNat := by
      rw [← Nat.pow_add]; congr 1; omega
    have hhigh : a.toNat * 2 ^ s.toNat % 2 ^ 16 = a.toNat % 2 ^ (16 - s.toNat) * 2 ^ s.toNat := by
      rw [hsplit, Nat.mul_mod_mul_right]
    have hlow : a.toNat / 2 ^ (16 - s.toNat) < 2 ^ s.toNat := by
      rw [Nat.div_lt_iff_lt_mul (by positivity), Nat.mul_comm, ← hsplit]; exact ha
    have hmod : a.toNat % 2 ^ (16 - s.toNat) + 1 ≤ 2 ^ (16 - s.toNat) := Nat.mod_lt _ (by positivity)
    apply BitVec.eq_of_toNat_eq
    rw [BitVec.toNat_ofNat, BitVec.toNat_rotateLeft, Nat.mod_eq_of_lt hs, Nat.shiftLeft_eq,
      Nat.shiftRight_eq_div_pow, hhigh, Nat.mul_comm, ← Nat.two_pow_add_eq_or_of_lt hlow, Nat.mod_eq_of_lt]
    calc 2 ^ s.toNat * (a.toNat % 2 ^ (16 - s.toNat)) + a.toNat / 2 ^ (16 - s.toNat)
        < 2 ^ s.toNat * (a.toNat % 2 ^ (16 - s.toNat) + 1) := by rw [Nat.mul_add]; omega
      _ ≤ 2 ^ s.toNat * 2 ^ (16 - s.toNat) := Nat.mul_le_mul_left _ hmod
      _ = 2 ^ 16 := by rw [hsplit, Nat.mul_comm]

end Sys2Proof.Machine
end

