-- ==== Sys2Proof/Laws/Run.lean ====
section
/-! SUPPORT. A run of several steps, one step at a time. -/

namespace Sys2Proof.Machine

theorem core_run_zero (s : State) : Sys2Proof.core.run 0 s = .next s := rfl

theorem run_next (M : Host.Core) (n : Nat) (s u : M.State) (h : M.step s = .next u) :
    M.run (n + 1) s = M.run n u := by
  simp only [Host.Core.run, h]

theorem core_run_next {n : Nat} {s u : State} (h : step s = .next u) :
    Sys2Proof.core.run (n + 1) s = Sys2Proof.core.run n u :=
  run_next Sys2Proof.core n s u h

/-- What a step does, by what the host presents. -/
theorem step_cases {s t : State} (h : step s = .next t) :
    (s.pending = [] ∧ t = s) ∨
    (∃ rest, s.pending = .reset :: rest ∧ t = applyReset { s with pending := rest }) ∨
    (∃ w rest, s.pending = .issue w :: rest ∧ executeWord w { s with pending := rest } = .next t) := by
  cases hp : s.pending with
  | nil =>
    rw [step_idle hp, next_inj] at h
    exact .inl ⟨rfl, h.symm⟩
  | cons a rest =>
    cases a with
    | reset =>
      rw [step_reset hp, next_inj] at h
      exact .inr (.inl ⟨rest, rfl, h.symm⟩)
    | issue w =>
      rw [step_issue hp] at h
      exact .inr (.inr ⟨w, rest, rfl, h⟩)

/-- A command word issued next is executed in the state as it stands. -/
theorem step_issueNext (w : CommandWord) (s : State) : step (issueNext w s) = executeWord w s :=
  step_issue (issueNext_pending w s)

end Sys2Proof.Machine
end

