-- ==== Sys2Proof/Tests/Slice0.lean ====
section
/-! SUPPORT. Tests, with expected results from spec/95_test_vectors.md and the worked examples of the rules, each one
step on a small state; then, for every statement with hypotheses, a state and operands that meet them. -/

open Sys2Proof Sys2Proof.Machine

namespace Sys2Proof.Tests

/-- The result is a next state of which `p` holds. -/
def nextIs (r : Result) (p : State → Bool) : Bool :=
  match r with
  | .next t => p t
  | .fault _ => false
  | .refused _ => false

/-- V1: the key schedule KS. -/
def ks : KeySchedule :=
  #v[0x1234, 0x5678, 0x9ABC, 0xDEF0, 0x1111, 0x2222, 0x3333, 0x4444, 0x5555, 0x6666]

/-- `K` holding KS. -/
def kFull : Vector (Option HalfWord) 10 :=
  #v[some 0x1234, some 0x5678, some 0x9ABC, some 0xDEF0, some 0x1111, some 0x2222, some 0x3333,
     some 0x4444, some 0x5555, some 0x6666]

/-- V61's trajectory, as the spec prints it. -/
def v61 : Trajectory :=
  #v[⟨0x0123, 0x4567⟩, ⟨0x4444, 0x0004⟩, ⟨0x4440, 0x123C⟩, ⟨0x567C, 0x9EF8⟩, ⟨0xC884, 0xB935⟩,
     ⟨0x71B1, 0x8018⟩, ⟨0xF1A9, 0x40C1⟩, ⟨0xB168, 0x9AC2⟩, ⟨0x2BAA, 0xE681⟩, ⟨0xCD2B, 0x0408⟩,
     ⟨0xC923, 0xCFC4⟩]

/-- After ten KPUSH of KS. -/
def loaded : State := { State.reset with k := kFull, kn := 10 }

/-- After nine KPUSH of KS. -/
def nineKeys : State :=
  { State.reset with
    k := #v[some 0x1234, some 0x5678, some 0x9ABC, some 0xDEF0, some 0x1111, some 0x2222, some 0x3333,
            some 0x4444, some 0x5555, none]
    kn := 9 }

/-- After KSEAL. -/
def sealedKs : State := { loaded with sealed := true }

/-- After the ENC of V61. -/
def encrypted : State := { sealedKs with t := some v61, tv := true }

/-- V82: after an illegal word from reset. -/
def faulted : State := { State.reset with f := true, cause := .illCmd }

/-! ## Well-formedness: an ill-formed word for each check of R66 -/

theorem test_reserved_opcode_refused : wellFormedWord 0x5000000000 = false ∧ opcodeAssigned 0x5000000000 = false := by
  decide
theorem test_reserved_idx_refused : wellFormedWord 0x1112340001 = false ∧ idxFieldFree 0x1112340001 = false := by decide
theorem test_reserved_a_refused : wellFormedWord 0xB000010000 = false ∧ aFieldFree 0xB000010000 = false := by decide
theorem test_reserved_b_refused : wellFormedWord 0x4012340001 = false ∧ bFieldFree 0x4012340001 = false := by decide

/-! ## Decoding: one word for each row, written from its pattern in R65, bit 39 first -/

theorem test_decode_xor : decode 0b0001000000010010001101000000000011111111 = .ok (.xor 0x1234 0x00FF) := by decide
theorem test_decode_add : decode 0b0010000001111010100110010110011001100110 = .ok (.add 0x7A99 0x6666) := by decide
theorem test_decode_rol : decode 0b0011000000010010001101000000000000000100 = .ok (.rol 0x1234 4) := by decide
theorem test_decode_popc : decode 0b0100000000010010001101000000000000000000 = .ok (.popc 0x1234) := by decide
theorem test_decode_kpush : decode 0b1000000000010010001101000000000000000000 = .ok (.kpush 0x1234) := by decide
theorem test_decode_kseal : decode 0b1001000000000000000000000000000000000000 = .ok .kseal := by decide
theorem test_decode_enc : decode 0b1010000000000001001000110100010101100111 = .ok (.enc 0x0123 0x4567) := by decide
theorem test_decode_rdt : decode 0b1011100100000000000000000000000000000000 = .ok (.rdt 9) := by decide
theorem test_decode_rds : decode 0b1100000000000000000000000000000000000000 = .ok .rds := by decide

/-- V80, V81, V86, V88: rejected, each by name. -/
theorem test_decode_illegal :
    decode 0x0000000000 = .error .reservedOpcode ∧ decode 0xFFFFFFFFFF = .error .reservedOpcode ∧
    decode 0x9000000001 = .error .reservedField ∧ decode 0xC000000001 = .error .reservedField := by decide

theorem test_decodeTableWord : decodeTableWord 40 0x3012340004 = some (.rol 0x1234 4) := by decide
theorem test_encode_rdt : encode (.rdt 10) = 0xBA00000000 := by decide

/-! ## HalfWord ALU (V12, V13, V15, V18, V21, V26, V27) -/

theorem test_xor_complement :
    nextIs (exec (.xor 0xABCD 0x5432) State.reset) (·.responses = [⟨false, 0x0000FFFF⟩]) = true := by decide
theorem test_add_wraps :
    nextIs (exec (.add 0xFFFF 0x0001) State.reset) (·.responses = [⟨false, 0⟩]) = true := by decide
theorem test_add_largest :
    nextIs (exec (.add 0xFFFF 0xFFFF) State.reset) (·.responses = [⟨false, 0x0000FFFE⟩]) = true := by decide
theorem test_rol_by_fifteen :
    nextIs (exec (.rol 0x8001 15) State.reset) (·.responses = [⟨false, 0x0000C000⟩]) = true := by decide
/-- V26: the amount is not masked. -/
theorem test_rol_amount_not_masked :
    nextIs (step (State.reset.withFetchWord 40 0x3012348004))
      (fun t => t.responses = [⟨true, 0⟩] ∧ statusWord t = 0x00000204) = true := by decide
theorem test_popc_all_ones :
    nextIs (exec (.popc 0xFFFF) State.reset) (·.responses = [⟨false, 16⟩]) = true := by decide
theorem test_popc_mixed :
    nextIs (exec (.popc 0x7FFF) State.reset) (·.responses = [⟨false, 15⟩]) = true := by decide

/-! ## Key schedule (R90, V50 to V55) -/

theorem test_kpush_first :
    nextIs (step (State.reset.withFetchWord 40 0x8012340000))
      (fun t => t.k[0] = some 0x1234 ∧ t.k[1] = none ∧ statusWord t = 0x00000010) = true := by decide
theorem test_kpush_sealed_is_keyimm :
    nextIs (exec (.kpush 0x7777) sealedKs) (fun t => t.k = kFull ∧ statusWord t = 0x000004A5) = true := by decide
theorem test_kseal_short :
    nextIs (exec .kseal nineKeys) (fun t => t.responses = [⟨true, 0⟩] ∧ statusWord t = 0x00000194) = true := by decide
theorem test_kseal_full :
    nextIs (exec .kseal loaded) (fun t => t.responses = [⟨false, 0⟩] ∧ statusWord t = 0x000000A1) = true := by decide

/-! ## Cipher (V61, V66, V70, V72, R108) -/

/-- R108, row i = 2: the old left half is rotated, by the low bits of the new left half. -/
theorem test_round_two : rf 2 0x9ABC ⟨0x1234, 0x5678⟩ = ⟨0x444C, 0xDB9F⟩ := by decide
/-- R108, row i = 9: the last round adds. -/
theorem test_round_nine_adds : rf 9 0x6666 ⟨0x1C41, 0x1313⟩ = ⟨0x0F52, 0xD76A⟩ := by decide
theorem test_enc_trajectory :
    nextIs (exec (.enc 0x0123 0x4567) sealedKs)
      (fun t => t.t = some v61 ∧ t.responses = [⟨false, 0xC923CFC4⟩] ∧ statusWord t = 0x000000A3) = true := by decide
theorem test_enc_unsealed :
    nextIs (exec (.enc 0 0) loaded) (fun t => t.responses = [⟨true, 0⟩] ∧ t.t = none ∧ t.cause = .keyLen) = true := by
  decide
theorem test_rdt_nine :
    nextIs (exec (.rdt 9) encrypted) (·.responses = [⟨false, 0xCD2B0408⟩]) = true := by decide
theorem test_rdt_eleven :
    nextIs (exec (.rdt 11) encrypted) (fun t => t.responses = [⟨true, 0⟩] ∧ statusWord t = 0x000003A7) = true := by
  decide

/-! ## System, faults, reset (V82, V86, section 2.5) -/

theorem test_rds_in_faulted_state :
    nextIs (step (faulted.withFetchWord 40 0xC000000000)) (·.responses = [⟨false, 0x00000504⟩]) = true := by decide
theorem test_malformed_rds_refused_in_faulted_state :
    nextIs (step (faulted.withFetchWord 40 0xC100000000))
      (fun t => t.responses = [⟨true, 0⟩] ∧ statusWord t = 0x00000504) = true := by decide
theorem test_kseal_illegal_before_keylen :
    nextIs (step (State.reset.withFetchWord 40 0x9000000001)) (statusWord · = 0x00000504) = true := by decide
theorem test_reset_leaves_faulted_state :
    nextIs (step { faulted with pending := [.reset] }) (· = State.reset) = true := by decide

/-! ## The host's side (Program 2, V32, R70) -/

theorem test_metric_right_key : metric 0xE0FF 0xE0FE 0x6666 = 1 ∧ metric 0xE0FF 0xE0FE 0x00FF = 14 := by decide
theorem test_partner : partner ⟨0x0000, 0x063D⟩ = ⟨0x8000, 0x863D⟩ := by decide
theorem test_read_line :
    readLine 0 ['%', 'x', '1', ' ', '=', ' ', 'R', 'O', 'L', ' ', '0', 'x', 'A', '9', '9', '7', ',', ' ', '1', '2',
      ' ', ';', ' ', 'R']
      = some [⟨some (.user ['x', '1']), .rol, [.lit 0xA997, .lit 12]⟩] := by decide
theorem test_read_sub :
    readLine 0 ['S', 'U', 'B', ' ', '%', 'c', '.', 'l', ',', '1']
      = some [⟨some (.temp 0), .xor, [.lit 1, .lit 0xFFFF]⟩,
              ⟨some (.temp 1), .add, [.low (.temp 0), .lit 1]⟩,
              ⟨none, .add, [.high (.user ['c']), .low (.temp 1)]⟩] := by decide

/-- Program 4: the pool's member for the right pair of V32, with both `T[9]`. -/
theorem test_sample_pair :
    (samplePair true ⟨0x0000, 0x063D⟩ sealedKs).map (·.1)
      = some (some ⟨0xE0FF, 0xE0FE, some (⟨0xA997, 0xB6EB⟩, ⟨0xA987, 0xB6FB⟩)⟩) := by decide
/-- V60 with V63: the pair of (0, 0) fails the filter. -/
theorem test_sample_pair_discarded : (samplePair false ⟨0x0000, 0x0000⟩ sealedKs).map (·.1) = some none := by decide
/-- Program 2. -/
theorem test_metric_by_commands : (metricByCommands 0xE0FF 0xE0FE 0x6666 State.reset).map (·.1) = some 1 := by decide

/-! ## Witnesses: the hypotheses of each statement can be met, at the boundaries of each clause -/

theorem witness_DecodeOfEncodeIsTheCommand : (Instr.rdt 15).wellFormed = true := by decide
theorem witness_EncodeOfDecodeIsTheWord : decode 0xBF00000000 = .ok (.rdt 15) := by decide
theorem witness_ReservedWordsRaiseIllcmd :
    (wellFormedWord 0xD000000000 = false ∧ State.reset.f = false) ∧
    (wellFormedWord 0xC000000001 = false ∧ faulted.f = true) ∧
    (opField 0xBB00000000 = 0xB ∧ idxField 0xBB00000000 = 11 ∧ aField 0xBB00000000 = 0 ∧ bField 0xBB00000000 = 0) := by
  decide
theorem witness_OpcodeRowsAreDisjoint :
    ∃ r ∈ rows, (0xA0FFFFFFFF : CommandWord) &&& r.mask = r.pattern :=
  ⟨_, List.mem_of_getElem? (i := 6) rfl, by decide⟩
theorem witness_StepRunsTheDecodedCommand :
    ({ sealedKs with pending := [.issue 0xA001234567, .reset] } : State).pending = .issue 0xA001234567 :: [.reset] ∧
    decode 0xA001234567 = .ok (.enc 0x0123 0x4567) ∧
    decodeTableWord 40 0xC000000000 = some .rds := by decide

theorem witness_XorAnswersBitwiseXor :
    (opField 0x10FFFFFFFF = 0x1 ∧ idxField 0x10FFFFFFFF = 0) ∧ (opField 0x1100000000 = 0x1 ∧ idxField 0x1100000000 ≠ 0) ∧
    State.reset.f = false ∧ faulted.f = true := by decide
theorem witness_AddAnswersSumModulo :
    (opField 0x20FFFFFFFF = 0x2 ∧ idxField 0x20FFFFFFFF = 0) ∧ (opField 0x2F00000000 = 0x2 ∧ idxField 0x2F00000000 ≠ 0) ∧
    encrypted.f = false ∧ faulted.f = true := by decide
theorem witness_RolRotatesOrFaults :
    (opField 0x308001000F = 0x3 ∧ idxField 0x308001000F = 0) ∧ (opField 0x318001000F = 0x3 ∧ idxField 0x318001000F ≠ 0) ∧
    State.reset.f = false ∧ (15 : HalfWord).toNat ≤ 15 ∧ 15 < (16 : HalfWord).toNat ∧ faulted.f = true := by decide
theorem witness_PopcCountsSetBits :
    (opField 0x40FFFF0000 = 0x4 ∧ idxField 0x40FFFF0000 = 0 ∧ bField 0x40FFFF0000 = 0) ∧
    (opField 0x40FFFF0001 = 0x4 ∧ bField 0x40FFFF0001 ≠ 0) ∧ State.reset.f = false ∧ faulted.f = true := by decide
theorem witness_AluCommandsArePure :
    isAlu (.rol 0x0001 16) = true ∧ isAlu (.popc 0) = true ∧ State.reset.f = false ∧ faulted.f = true := by decide
theorem witness_RotateLeftMovesBits : (15 : Nibble) ≠ 0 ∧ 15 < 16 := by decide

theorem witness_KpushAppendsOrFaults :
    (opField 0x80FFFF0000 = 0x8 ∧ idxField 0x80FFFF0000 = 0 ∧ bField 0x80FFFF0000 = 0) ∧
    (opField 0x80FFFF0001 = 0x8 ∧ bField 0x80FFFF0001 ≠ 0) ∧
    (sealedKs.f = false ∧ sealedKs.sealed = true) ∧
    (loaded.f = false ∧ loaded.sealed = false ∧ loaded.kn = 10) ∧
    (nineKeys.f = false ∧ nineKeys.sealed = false ∧ nineKeys.kn ≠ 10) ∧ faulted.f = true := by decide
theorem witness_KsealSealsOrFaults :
    (opField 0x9000000000 = 0x9 ∧ idxField 0x9000000000 = 0 ∧ aField 0x9000000000 = 0 ∧ bField 0x9000000000 = 0) ∧
    (opField 0x9000010000 = 0x9 ∧ aField 0x9000010000 ≠ 0) ∧
    (sealedKs.f = false ∧ sealedKs.sealed = true) ∧
    (nineKeys.f = false ∧ nineKeys.sealed = false ∧ nineKeys.kn ≠ 10) ∧
    (loaded.f = false ∧ loaded.sealed = false ∧ loaded.kn = 10) ∧ faulted.f = true := by decide
theorem witness_SealedKeysNeverChange :
    ∃ t, (issueNext 0x8077770000 sealedKs).sealed = true ∧ (issueNext 0x8077770000 sealedKs).noResetNext ∧
      step (issueNext 0x8077770000 sealedKs) = .next t :=
  ⟨_, rfl, by simp [State.noResetNext], rfl⟩
theorem witness_KeysAffectNoResponseButEncs : ∀ l r, Instr.rdt 10 ≠ .enc l r := fun _ _ h => by cases h

theorem witness_RoundFunctionFourSteps : (8 : Fin 10).val ≤ 8 ∧ (9 : Fin 10).val = 9 := by decide
theorem witness_EncWritesTheTrajectory :
    (opField 0xA0FFFFFFFF = 0xA ∧ idxField 0xA0FFFFFFFF = 0) ∧ (opField 0xA100000000 = 0xA ∧ idxField 0xA100000000 ≠ 0) ∧
    (loaded.f = false ∧ loaded.sealed = false) ∧ (sealedKs.f = false ∧ sealedKs.sealed = true) ∧
    sealedKs.k[9] = some 0x6666 ∧ faulted.f = true := by decide
theorem witness_RdtAnswersTheEntry :
    (opField 0xBF00000000 = 0xB ∧ aField 0xBF00000000 = 0 ∧ bField 0xBF00000000 = 0) ∧
    (opField 0xB000000001 = 0xB ∧ bField 0xB000000001 ≠ 0) ∧
    (encrypted.f = false ∧ 10 < (11 : Nibble).toNat) ∧ (sealedKs.f = false ∧ sealedKs.tv = false) ∧
    (encrypted.f = false ∧ (10 : Nibble).toNat ≤ 10 ∧ encrypted.tv = true ∧ encrypted.t = some v61 ∧
      (10 : Fin 11).val = (10 : Nibble).toNat) ∧ faulted.f = true := by decide
theorem witness_RdtAfterEncReadsThatTrajectory :
    sealedKs.f = false ∧ sealedKs.sealed = true ∧ (10 : Fin 11).val = (10 : Nibble).toNat := by decide
theorem witness_EncIsIdempotent : encrypted.f = false ∧ encrypted.sealed = true := by decide

theorem encrypted_inv : encrypted.Inv where
  keysHeld   := by decide
  sealedFull := by decide
  trajHeld   := rfl
  trajSealed := by decide
  causeIffF  := by decide

theorem kFull_holds_ks : ∀ i : Fin 10, kFull[i] = some ks[i] := by decide

theorem encrypted_trajectoryInv : encrypted.TrajectoryInv := by
  intro tr htr i key hk
  have hv : v61 = tr := Option.some.inj htr
  have hs : kFull[i] = some key := hk
  subst hv
  have hkey : ks[i] = key := Option.some.inj ((kFull_holds_ks i).symm.trans hs)
  subst hkey
  clear hs htr hk
  revert i
  decide

theorem witness_StepKeepsTrajectoryRounds :
    ∃ t, (issueNext 0xA001234567 encrypted).Inv ∧ (issueNext 0xA001234567 encrypted).TrajectoryInv ∧
      step (issueNext 0xA001234567 encrypted) = .next t :=
  ⟨_, ⟨encrypted_inv.1, encrypted_inv.2, encrypted_inv.3, encrypted_inv.4, encrypted_inv.5⟩,
    encrypted_trajectoryInv, rfl⟩
theorem witness_StepKeepsTheInvariants :
    ∃ t, (issueNext 0xBB00000000 encrypted).Inv ∧ step (issueNext 0xBB00000000 encrypted) = .next t :=
  ⟨_, ⟨encrypted_inv.1, encrypted_inv.2, encrypted_inv.3, encrypted_inv.4, encrypted_inv.5⟩, rfl⟩
theorem witness_RoundRebuiltByAluCommands : sealedKs.f = false := by decide

theorem witness_RdsAnswersStatusInEveryPhase :
    (opField 0xC000000000 = 0xC ∧ idxField 0xC000000000 = 0 ∧ aField 0xC000000000 = 0 ∧ bField 0xC000000000 = 0) ∧
    (opField 0xC100000000 = 0xC ∧ idxField 0xC100000000 ≠ 0) := by decide
theorem witness_ElementsWrittenOnlyByTheirCommands : ∃ t, exec (.rol 0x0001 16) encrypted = .next t := ⟨_, rfl⟩

theorem witness_EachCauseExactlyWhenItsConditionHolds :
    (encrypted.f = false ∧ encrypted.cause = .none) ∧ (State.reset.f = false ∧ State.reset.cause = .none) := by decide
theorem witness_FaultsArePrecise : sealedKs.f = false := by decide
theorem witness_FaultedStateRefusesAllButRds :
    faulted.f = true ∧ (0xC000000001 : CommandWord) ≠ 0xC000000000 ∧ Instr.kseal ≠ .rds := by decide
theorem witness_OnlyResetLeavesTheFaultedState :
    (∃ t, (issueNext 0x8022220000 faulted).f = true ∧ (issueNext 0x8022220000 faulted).noResetNext ∧
      step (issueNext 0x8022220000 faulted) = .next t) ∧
    ({ faulted with pending := [.reset] } : State).pending = .reset :: [] :=
  ⟨⟨_, rfl, by simp [State.noResetNext], rfl⟩, rfl⟩
theorem witness_PhaseTransitions :
    (∃ t, step (issueNext 0x9000000000 loaded) = .next t ∧ phase (issueNext 0x9000000000 loaded) = .load ∧
      phase t = .sealed) ∧
    (∃ t, step (issueNext 0x3000010010 sealedKs) = .next t ∧ (issueNext 0x3000010010 sealedKs).noResetNext ∧
      phase (issueNext 0x3000010010 sealedKs) = .sealed) ∧
    (∃ t, step (issueNext 0x9000000000 faulted) = .next t ∧ (issueNext 0x9000000000 faulted).noResetNext ∧
      phase (issueNext 0x9000000000 faulted) = .faulted) ∧
    (∃ t, step { faulted with pending := [.reset] } = .next t) :=
  ⟨⟨_, rfl, rfl, rfl⟩, ⟨_, rfl, by simp [State.noResetNext], rfl⟩, ⟨_, rfl, by simp [State.noResetNext], rfl⟩, ⟨_, rfl⟩⟩
theorem witness_ResetGivesTheResetState :
    ({ encrypted with pending := [.reset, .issue 0xC000000000] } : State).pending
      = .reset :: [.issue 0xC000000000] := rfl
theorem witness_NothingPresentedChangesNothing : encrypted.pending = [] := rfl
theorem witness_ResponseDependsOnElementsAndWord :
    sameElements encrypted { encrypted with responses := [⟨false, 7⟩], pending := [.reset] } := by
  simp [sameElements]
theorem witness_EqualInstancesAnswerEqually :
    sameElements encrypted { encrypted with responses := [⟨false, 7⟩] } ∧
    encrypted.pending = ({ encrypted with responses := [⟨false, 7⟩] } : State).pending := by
  simp [sameElements]
theorem witness_RunGoneWrongExactlyWhenLatched :
    (∀ a ∈ (issueNext 0x3000010010 sealedKs).pending, a ≠ .reset) ∧
    ((issueNext 0x3000010010 sealedKs).goneWrong ↔
      (statusWord (issueNext 0x3000010010 sealedKs)).getLsbD 2 = true) ∧
    ∃ t, Sys2Proof.core.run 1 (issueNext 0x3000010010 sealedKs) = .next t := by
  refine ⟨by decide, ?_, _, core_run_next (n := 0) rfl⟩
  have h1 : ¬ (issueNext 0x3000010010 sealedKs).goneWrong := by
    rintro ⟨r, hr, _⟩
    cases hr
  have h2 : (statusWord (issueNext 0x3000010010 sealedKs)).getLsbD 2 = false := by decide
  exact ⟨fun h => absurd h h1, fun h => by rw [h2] at h; cases h⟩

theorem witness_PseudoInstructionsCompute : State.reset.f = false := rfl
theorem witness_KloadLoadsAndSeals :
    State.reset.f = false ∧ State.reset.sealed = false ∧ State.reset.kn = 0 := by decide
/-- V32: a right pair. -/
theorem witness_RightPairMetricIsOne :
    isRightPair (trajectory ks ⟨0x0000, 0x063D⟩, trajectory ks ⟨0x8000, 0x863D⟩) = true := by decide
/-- The same pair; its D9 is (0x0010, 0x0010). -/
theorem witness_FilterKeepsEveryRightPair :
    bxor (trajectory ks ⟨0x0000, 0x063D⟩)[9] (trajectory ks ⟨0x8000, 0x863D⟩)[9] = ⟨0x0010, 0x0010⟩ ∧
    isRightPair (trajectory ks ⟨0x0000, 0x063D⟩, trajectory ks ⟨0x8000, 0x863D⟩) = true :=
  ⟨by decide, witness_RightPairMetricIsOne⟩
/-- With no pool every key has weight 0. -/
theorem witness_RecoveredKeyIsLeastMinimum : ∀ j : HalfWord, keyWeight [] 0 ≤ keyWeight [] j := by
  intro j; simp [keyWeight]
theorem witness_TopKeyBitIsInvisible : ∀ j : HalfWord, keyWeight [] 0 ≤ keyWeight [] j :=
  witness_RecoveredKeyIsLeastMinimum

end Sys2Proof.Tests
end

/-! # Proofs: scope and value types (00_scope.md) -/

namespace Sys2Proof.Machine

/-! ## Blocks and words (R7) -/

/-- The sum of R7 fits in 32 bits, so `pack` never wraps. -/
@[simp] theorem pack_toNat (b : Block) :
    (pack b).toNat = b.left.toNat * 65536 + b.right.toNat := by
  have hleft := b.left.isLt
  have hright := b.right.isLt
  simp only [pack, BitVec.toNat_ofNat]
  omega

@[simp] theorem unpack_left_toNat (y : Word) : (unpack y).left.toNat = y.toNat / 65536 := by
  have hy := y.isLt
  simp only [unpack, BitVec.extractLsb'_toNat, Nat.shiftRight_eq_div_pow]
  omega

@[simp] theorem unpack_right_toNat (y : Word) : (unpack y).right.toNat = y.toNat % 65536 := by
  simp [unpack]

theorem unpack_pack_left (b : Block) : (unpack (pack b)).left = b.left := by
  apply BitVec.eq_of_toNat_eq
  have hright := b.right.isLt
  rw [unpack_left_toNat, pack_toNat]
  omega

theorem unpack_pack_right (b : Block) : (unpack (pack b)).right = b.right := by
  apply BitVec.eq_of_toNat_eq
  have hright := b.right.isLt
  rw [unpack_right_toNat, pack_toNat]
  omega

@[simp] theorem unpack_pack (b : Block) : unpack (pack b) = b :=
  congrArg₂ Block.mk (unpack_pack_left b) (unpack_pack_right b)

/-- Quotient and remainder by `2^16` put the word back together. -/
@[simp] theorem pack_unpack (y : Word) : pack (unpack y) = y := by
  apply BitVec.eq_of_toNat_eq
  rw [pack_toNat, unpack_left_toNat, unpack_right_toNat]
  exact Nat.div_add_mod' y.toNat 65536

/-- Settles O16: `pack` by its value, and `unpack` its inverse on both sides by quotient and
remainder by `2^16`. -/
theorem packPlacesLeftAboveRight : Obligations.PackPlacesLeftAboveRight :=
  ⟨pack_toNat, unpack_pack, pack_unpack⟩

end Sys2Proof.Machine

/-! # Proofs: the state after reset (10_state.md R33) -/

namespace Sys2Proof.Machine

/-- R33: an entry that no KPUSH has written is absent, not zero. -/
@[simp] theorem reset_k_getElem (i : Fin 10) : State.reset.k[i] = none :=
  Vector.getElem_replicate i.isLt

/-- Every field that `STATUS` shows is 0 after reset, so the sum of R28 is 0. -/
@[simp] theorem statusWord_reset : statusWord State.reset = 0 := by
  simp [statusWord, State.reset, causeCode]

/-- Settles O39: the control fields and `T` are read off the reset record; `STATUS` and the key
entries are the two lemmas above. -/
theorem stateAfterReset : Obligations.StateAfterReset :=
  ⟨rfl, rfl, rfl, rfl, rfl, statusWord_reset, reset_k_getElem, rfl⟩

end Sys2Proof.Machine

/-! # Proofs: encoding (30_encoding.md R66) -/

namespace Sys2Proof

/-! ## Which words are illegal -/

/-- R65: an opcode is reserved or stands in one of the nine rows. -/
theorem opcode_reserved_or_row (op : Nibble) :
    op ∈ reservedOpcodes ∨ op = 0x1 ∨ op = 0x2 ∨ op = 0x3 ∨ op = 0x4 ∨ op = 0x8 ∨ op = 0x9 ∨
      op = 0xA ∨ op = 0xB ∨ op = 0xC := by
  revert op
  decide

theorem wellFormedWord_reserved {w : CommandWord} (h : opField w ∈ reservedOpcodes) :
    wellFormedWord w = false := by
  simp [wellFormedWord_fields, h]

/-- Where a row's mask test and the field rules of R66 ask the same of a word, the decoder rejects the
word exactly when it is not well formed. -/
theorem wellFormedWord_false_iff_of_row {w : CommandWord} {legal : Prop} [Decidable legal] {i : Instr}
    (hdecode : decode w = if legal then .ok i else .error .reservedField)
    (hwf : wellFormedWord w = true ↔ legal) :
    wellFormedWord w = false ↔ ∃ e, decode w = .error e := by
  rw [← Bool.not_eq_true, hwf, hdecode]
  by_cases hlegal : legal <;> simp [hlegal]

/-- R66 and the match and mask columns of R65 reject the same words: both reject a reserved opcode, and
each row's mask tests the fields that R66 reserves for its command. -/
theorem wellFormedWord_false_iff_decode_error (w : CommandWord) :
    wellFormedWord w = false ↔ ∃ e, decode w = .error e := by
  rcases opcode_reserved_or_row (opField w) with h | h | h | h | h | h | h | h | h | h
  · exact iff_of_true (wellFormedWord_reserved h) ⟨_, decode_reserved h⟩
  · exact wellFormedWord_false_iff_of_row (decode_xor h) (by simp [wellFormedWord_fields, h, reservedOpcodes])
  · exact wellFormedWord_false_iff_of_row (decode_add h) (by simp [wellFormedWord_fields, h, reservedOpcodes])
  · exact wellFormedWord_false_iff_of_row (decode_rol h) (by simp [wellFormedWord_fields, h, reservedOpcodes])
  · exact wellFormedWord_false_iff_of_row (decode_popc h) (by simp [wellFormedWord_fields, h, reservedOpcodes])
  · exact wellFormedWord_false_iff_of_row (decode_kpush h) (by simp [wellFormedWord_fields, h, reservedOpcodes])
  · exact wellFormedWord_false_iff_of_row (decode_kseal h)
      (by simp [wellFormedWord_fields, h, reservedOpcodes, and_assoc])
  · exact wellFormedWord_false_iff_of_row (decode_enc h) (by simp [wellFormedWord_fields, h, reservedOpcodes])
  · exact wellFormedWord_false_iff_of_row (decode_rdt h) (by simp [wellFormedWord_fields, h, reservedOpcodes])
  · exact wellFormedWord_false_iff_of_row (decode_rds h)
      (by simp [wellFormedWord_fields, h, reservedOpcodes, and_assoc])

end Sys2Proof

namespace Sys2Proof.Machine

/-! ## What an illegal word does -/

/-- R66, R153: an illegal word raises ILLCMD while `F = 0`. -/
theorem step_issueNext_illegal {w : CommandWord} {s : State} (hw : wellFormedWord w = false)
    (hf : s.f = false) : step (issueNext w s) = raiseFault .illCmd s := by
  obtain ⟨e, he⟩ := (wellFormedWord_false_iff_decode_error w).1 hw
  rw [step_issueNext, executeWord_illegal hf he]

/-- The one word that is executed while `F = 1` is legal. -/
theorem ne_rdsWord_of_illegal {w : CommandWord} (hw : wellFormedWord w = false) : w ≠ rdsWord := by
  rintro rfl
  exact absurd hw (by decide)

/-- R66, R154: an illegal word is refused like any other while `F = 1`. -/
theorem step_issueNext_illegal_faulted {w : CommandWord} {s : State} (hw : wellFormedWord w = false)
    (hf : s.f = true) : step (issueNext w s) = refuse s := by
  rw [step_issueNext, executeWord_faulted hf (ne_rdsWord_of_illegal hw)]

/-! ## RDT with any index is legal -/

theorem decode_rdt_free {w : CommandWord} (hop : opField w = 0xB) (ha : aField w = 0) (hb : bField w = 0) :
    decode w = .ok (.rdt (idxField w)) := by
  rw [decode_rdt hop, if_pos ⟨ha, hb⟩]

/-- R66, R105: an index above 10 is not illegal; it raises TRAJLEN. -/
theorem step_issueNext_rdt_beyond {w : CommandWord} {i : Nibble} {s : State}
    (hdecode : decode w = .ok (.rdt i)) (hi : 10 < i.toNat) (hf : s.f = false) :
    step (issueNext w s) = raiseFault .trajLen s := by
  rw [step_issueNext, executeWord_legal hf hdecode, exec_rdt_bad hf (.inl hi)]

/-- Settles O4: the decoder and R66 reject the same words, row by row; ILLCMD, the refusal and TRAJLEN
then follow the order of the checks of R157. -/
theorem reservedWordsRaiseIllcmd : Obligations.ReservedWordsRaiseIllcmd := by
  refine ⟨wellFormedWord_false_iff_decode_error, rfl,
    fun w s hw hf => step_issueNext_illegal hw hf,
    fun w s hw hf => step_issueNext_illegal_faulted hw hf, by decide, by decide, ?_⟩
  rintro i hi w hop rfl ha hb
  have hdecode := decode_rdt_free hop ha hb
  exact ⟨hdecode, fun s hf => step_issueNext_rdt_beyond hdecode hi hf⟩

end Sys2Proof.Machine

/-! # Proofs: the HalfWord ALU (40_alu.md R80 to R82, R84) -/

namespace Sys2Proof.Machine

/-! ## What every command of a format shares -/

/-- R66, R154: a row's decoding equation says which words with its opcode are the command; every other
one is an illegal word. -/
theorem decodesAs_of_decode {op : Nibble} {fieldsFree : CommandWord → Prop} [DecidablePred fieldsFree]
    {i : CommandWord → Instr}
    (hdecode : ∀ w, opField w = op →
      decode w = if fieldsFree w then .ok (i w) else .error .reservedField) :
    decodesAs op fieldsFree i := by
  intro w hop
  have hw := hdecode w hop
  refine ⟨fun hfree => by rw [hw, if_pos hfree], fun hfree => ?_⟩
  have hillegal : wellFormedWord w = false :=
    (wellFormedWord_false_iff_decode_error w).2 ⟨_, hw.trans (if_neg hfree)⟩
  exact ⟨fun s hf => step_issueNext_illegal hillegal hf,
    fun s hf => step_issueNext_illegal_faulted hillegal hf⟩

theorem refusedWhenFaulted_of_ne_rds {i : Instr} (hi : i ≠ .rds) : refusedWhenFaulted i :=
  fun _ hf => exec_faulted hf hi

/-! ## Results zero-extended into `Y` (R61) -/

theorem zext32_getLsbD_low (v : HalfWord) {i : Nat} (hi : i < 16) :
    (zext32 v).getLsbD i = v.getLsbD i := by
  have hi32 : i < 32 := by omega
  simp [zext32, hi32]

theorem zext32_getLsbD_high (v : HalfWord) {i : Nat} (hi : 16 ≤ i) : (zext32 v).getLsbD i = false := by
  simp [zext32, BitVec.getLsbD_of_ge v i hi]

@[simp] theorem zext32_toNat (v : HalfWord) : (zext32 v).toNat = v.toNat :=
  BitVec.toNat_setWidth_of_le (by decide)

theorem zext32_toNat_lt (v : HalfWord) : (zext32 v).toNat < 65536 := by
  rw [zext32_toNat]
  exact v.isLt

/-! ## The population count (R10) -/

/-- R10's sum of bits is the number of set positions. -/
theorem popcount16_eq_card (a : HalfWord) :
    popcount16 a = (Finset.univ.filter fun i : Fin 16 => a.getLsbD i.val = true).card := by
  calc popcount16 a
      = ∑ i : Fin 16, (a.getLsbD i.val).toNat := by
        rw [popcount16, Fin.sum_univ_def, ← List.map_coe_finRange_eq_range, List.map_map, Function.comp_def]
    _ = ∑ i : Fin 16, if a.getLsbD i.val = true then 1 else 0 := by
        simp only [Bool.toNat, Bool.cond_eq_ite]
    _ = _ := (Finset.card_filter _ _).symm

/-- The count is at most 16, so as a HalfWord it keeps its value. -/
theorem countHalf_toNat (a : HalfWord) : (countHalf a).toNat = popcount16 a := by
  have hle : popcount16 a ≤ 16 := by
    rw [popcount16_eq_card]
    exact card_finset_fin_le _
  rw [countHalf, BitVec.toNat_ofNat]
  omega

/-! ## What the four ALU commands can do -/

theorem ne_rds_of_isAlu {i : Instr} (hi : isAlu i = true) : i ≠ .rds := by
  rintro rfl
  cases hi

/-- R80: while `F = 0` an ALU command answers one HalfWord in every state, unless it is a ROL with an
amount above 15. -/
theorem exec_alu_cases {i : Instr} (hi : isAlu i = true) :
    (∃ v : HalfWord, ∀ s : State, s.f = false → exec i s = .next (s.answer false (zext32 v))) ∨
    ∃ a n, i = .rol a n ∧ 15 < n.toNat := by
  cases i with
  | xor a b => exact .inl ⟨_, fun _ hf => exec_xor hf a b⟩
  | add a b => exact .inl ⟨_, fun _ hf => exec_add hf a b⟩
  | popc a => exact .inl ⟨_, fun _ hf => exec_popc hf a⟩
  | rol a n =>
    rcases Nat.lt_or_ge 15 n.toNat with hn | hn
    · exact .inr ⟨a, n, rfl, hn⟩
    · exact .inl ⟨_, fun _ hf => exec_rol_le hf a hn⟩
  | _ => cases hi

/-! ## The obligations -/

/-- Settles O7: the answer is the zero-extended XOR, read bit by bit. -/
theorem xorAnswersBitwiseXor : Obligations.XorAnswersBitwiseXor := by
  refine ⟨decodesAs_of_decode fun _ => decode_xor, fun a b s hf => ⟨_, exec_xor hf a b, ?_, ?_⟩,
    fun _ _ => refusedWhenFaulted_of_ne_rds nofun⟩
  · intro i hi
    rw [zext32_getLsbD_low _ hi, xor16, BitVec.getLsbD_xor]
  · exact fun i hi => zext32_getLsbD_high _ hi

/-- Settles O8: the answer is the zero-extended sum, whose carry out of bit 15 the HalfWord drops. -/
theorem addAnswersSumModulo : Obligations.AddAnswersSumModulo := by
  refine ⟨decodesAs_of_decode fun _ => decode_add, fun a b s hf => ⟨_, exec_add hf a b, ?_⟩,
    fun _ _ => refusedWhenFaulted_of_ne_rds nofun⟩
  rw [zext32_toNat, add16, BitVec.toNat_add]

/-- Settles O10: the answer is R10's sum, which counts the set positions and fits a HalfWord. -/
theorem popcCountsSetBits : Obligations.PopcCountsSetBits := by
  refine ⟨decodesAs_of_decode fun _ => decode_popc, fun a s hf => ⟨_, exec_popc hf a, ?_⟩,
    fun _ => refusedWhenFaulted_of_ne_rds nofun⟩
  rw [zext32_toNat, countHalf_toNat, popcount16_eq_card]

/-- Settles O11: the response is a HalfWord with FLT = 0, or that of ROTAMT for a ROL with an amount
above 15. -/
theorem aluCommandsArePure : Obligations.AluCommandsArePure := by
  intro i hi
  refine ⟨?_, refusedWhenFaulted_of_ne_rds (ne_rds_of_isAlu hi)⟩
  rcases exec_alu_cases hi with ⟨v, hanswer⟩ | ⟨a, n, rfl, hn⟩
  · exact ⟨⟨false, zext32 v⟩, zext32_toNat_lt v, fun s hf =>
      ⟨_, hanswer s hf, rfl, hf, fun _ => rfl, nofun⟩⟩
  · exact ⟨⟨true, 0⟩, by decide, fun s hf =>
      ⟨_, exec_rol_gt hf a hn, rfl, rfl, nofun, fun _ => ⟨rfl, a, n, rfl, hn⟩⟩⟩

end Sys2Proof.Machine

/-! # Proofs: the key schedule (41_key_schedule.md R90, R91) -/

namespace Sys2Proof.Machine

/-! ## Appending a key (R21, R22, R41) -/

/-- Every entry of the key store after a write. -/
theorem memWriteK_getElem (k : Vector (Option HalfWord) 10) (n : Nat) (v : HalfWord) (i : Fin 10) :
    (memWriteK k n v)[i] = if i.val = n then some v else k[i] :=
  (Vector.getElem_setIfInBounds i.isLt).trans (if_congr eq_comm rfl rfl)

/-- R22: below ten keys, counting one more does not wrap. -/
theorem kn_add_one_val {n : Fin 11} (hn : n ≠ 10) : (n + 1).val = n.val + 1 :=
  Fin.val_add_one_of_lt' (Nat.succ_lt_succ (Fin.val_lt_last hn))

/-! ## The obligations -/

/-- Settles O17: the two faults and the append are the three equations of KPUSH, in the order of R90's
checks; the append is read off the written store, entry by entry. -/
theorem kpushAppendsOrFaults : Obligations.KpushAppendsOrFaults :=
  ⟨decodesAs_of_decode fun _ => decode_kpush,
    fun v _ hf hs => exec_kpush_sealed hf v hs,
    fun v _ hf hs hk => exec_kpush_full hf v hs hk,
    fun v s hf hs hk =>
      ⟨_, exec_kpush_room hf v hs hk, rfl, kn_add_one_val hk, memWriteK_getElem s.k s.kn.val v⟩,
    fun _ => refusedWhenFaulted_of_ne_rds nofun⟩

/-- Settles O18: the two faults and the seal are the three equations of KSEAL, in the order of R91's
checks. -/
theorem ksealSealsOrFaults : Obligations.KsealSealsOrFaults :=
  ⟨decodesAs_of_decode fun _ => decode_kseal,
    fun _ hf hs => exec_kseal_sealed hf hs,
    fun _ hf hs hk => exec_kseal_short hf hs hk,
    fun _ hf hs hk => exec_kseal_full hf hs hk,
    refusedWhenFaulted_of_ne_rds nofun⟩

end Sys2Proof.Machine

/-! # Proofs: the cipher (42_cipher.md R103, R105) -/

namespace Sys2Proof.Machine

/-! ## The entries of an encryption (R103) -/

/-- R103: below round index 10 the sequence goes on by one round. -/
theorem roundOutput_succ (ks : KeySchedule) (p : Block) (i : Fin 10) :
    roundOutput ks p (i.val + 1) = rf i ks[i] (roundOutput ks p i.val) :=
  dif_pos i.isLt

theorem trajectory_getElem (ks : KeySchedule) (p : Block) {n : Nat} (hn : n < 11) :
    (trajectory ks p)[n] = roundOutput ks p n :=
  Vector.getElem_ofFn hn

theorem trajectory_zero (ks : KeySchedule) (p : Block) : (trajectory ks p)[0] = p :=
  trajectory_getElem ks p (by decide)

theorem trajectory_succ (ks : KeySchedule) (p : Block) (i : Fin 10) :
    (trajectory ks p)[i.val + 1] = rf i ks[i] (trajectory ks p)[i.val] := by
  rw [trajectory_getElem, trajectory_getElem, roundOutput_succ]

/-- R41: where the key store holds a key, the schedule has that key. -/
theorem schedule_getElem_of_some {s : State} {i : Fin 10} {key : HalfWord} (hk : s.k[i] = some key) :
    (schedule s)[i] = key :=
  (Vector.getElem_ofFn i.isLt).trans (memReadK_some hk)

/-! ## The obligations -/

/-- Settles O24: the fault and the encryption are the two equations of ENC; the entries it writes are
those of `trajectory`, whose rounds use the keys held in `K`. -/
theorem encWritesTheTrajectory : Obligations.EncWritesTheTrajectory := by
  refine ⟨decodesAs_of_decode fun _ => decode_enc,
    fun l r _ hf hs => exec_enc_unsealed hf l r hs,
    fun l r s hf hs =>
      ⟨trajectory (schedule s) ⟨l, r⟩, exec_enc_sealed hf l r hs, trajectory_zero _ _, ?_⟩,
    fun _ _ => refusedWhenFaulted_of_ne_rds nofun⟩
  intro i key hk
  rw [trajectory_succ, schedule_getElem_of_some hk]

/-- Settles O25: the fault and the answer are the two equations of RDT; the answer is the packed entry
of whatever trajectory `T` holds. -/
theorem rdtAnswersTheEntry : Obligations.RdtAnswersTheEntry := by
  refine ⟨decodesAs_of_decode fun _ => decode_rdt,
    fun _ _ hf hbad => exec_rdt_bad hf hbad,
    fun n s hf hn htv => ⟨pack (memReadT s.t n.toNat), exec_rdt_good hf hn htv, ?_⟩,
    fun _ => refusedWhenFaulted_of_ne_rds nofun⟩
  intro tr j ht hj
  rw [ht, ← hj, memReadT_some]

end Sys2Proof.Machine

/-! # Proofs: the system command RDS (43_system.md R120) -/

namespace Sys2Proof.Machine

/-- R120, R155: the word RDS is answered alike on both sides of R157's check of `F`. -/
theorem step_issueNext_rdsWord (s : State) :
    step (issueNext rdsWord s) = .next (s.answer false (statusWord s)) := by
  rw [step_issueNext, executeWord_rdsWord, exec_rds]

/-- Settles O32: the row of RDS reserves every field below the opcode, and neither the command nor its
one legal word depends on the phase. -/
theorem rdsAnswersStatusInEveryPhase : Obligations.RdsAnswersStatusInEveryPhase :=
  ⟨decodesAs_of_decode fun _ => decode_rds, exec_rds, step_issueNext_rdsWord⟩

end Sys2Proof.Machine

/-! # Proofs: the host reference procedure (45_host_reference.md R137) -/

namespace Sys2Proof.Machine

/-- R137's choice is the choice among the admitted candidates when every candidate is admitted. -/
theorem leastBestWhere_true (weight : HalfWord → Nat) (n : Nat) :
    leastBestWhere (fun _ => true) weight n = .some (leastBest weight n) := by
  induction n with
  | zero => rfl
  | succ n ih =>
    simp only [leastBestWhere, ih, leastBest, Bool.true_and, decide_eq_true_eq]
    split <;> rfl

/-- R137: over all HalfWords the choice has least weight, and every smaller key weighs more. -/
theorem leastBest_lastKey_least (weight : HalfWord → Nat) :
    (∀ j : HalfWord, weight (leastBest weight lastKey) ≤ weight j) ∧
    ∀ j : HalfWord, j.toNat < (leastBest weight lastKey).toNat →
      weight (leastBest weight lastKey) < weight j := by
  obtain ⟨best, hbest, -, hleast, hfirst⟩ :=
    leastBestWhere_all (admits := fun _ => true) (key := 0) weight rfl
  obtain rfl : leastBest weight lastKey = best :=
    Option.some.inj ((leastBestWhere_true weight lastKey).symm.trans hbest)
  exact ⟨fun j => hleast j rfl, fun j => hfirst j rfl⟩

/-- Settles O55: the recovered key is R137's choice for the weights of the pool; a key of minimum weight
below it would have to weigh more than it. -/
theorem recoveredKeyIsLeastMinimum : Obligations.RecoveredKeyIsLeastMinimum := by
  intro pool
  obtain ⟨hleast, hfirst⟩ := leastBest_lastKey_least (keyWeight pool)
  refine ⟨hleast, fun key hkey => Nat.not_lt.1 fun hlt => ?_⟩
  exact absurd (hkey (recoveredKey pool)) (Nat.not_le.2 (hfirst key hlt))

end Sys2Proof.Machine

/-! # Proofs: faults and the faulted state (60_exceptions.md R152 to R156) -/

namespace Sys2Proof.Machine

/-! ## The cause a command and a word raise (R152) -/

/-- R152: the cause a command raises while `F = 0`, `none` if it completes. -/
def commandCause (i : Instr) (s : State) : Cause :=
  match i with
  | .rol _ n => if 15 < n.toNat then .rotAmt else .none
  | .kpush _ => if s.sealed then .keyImm else if s.kn = 10 then .keyLen else .none
  | .kseal   => if s.sealed then .keyImm else if s.kn = 10 then .none else .keyLen
  | .enc _ _ => if s.sealed then .none else .keyLen
  | .rdt n   => if 10 < n.toNat ∨ s.tv = false then .trajLen else .none
  | .xor _ _ | .add _ _ | .popc _ | .rds => .none

/-- R152, R157: the cause a word raises while `F = 0`; ILLCMD comes before the command's own checks. -/
def wordCause (w : CommandWord) (s : State) : Cause :=
  match decode w with
  | .error _ => .illCmd
  | .ok i => commandCause i s

theorem wordCause_error {w : CommandWord} {e : Illegal} (hd : decode w = .error e) (s : State) :
    wordCause w s = .illCmd := by
  rw [wordCause, hd]

theorem wordCause_ok {w : CommandWord} {i : Instr} (hd : decode w = .ok i) (s : State) :
    wordCause w s = commandCause i s := by
  rw [wordCause, hd]

/-! ## How a word ends while `F = 0` (R153) -/

/-- The two ways a word ends that raises the cause `c`: it completes when `c` is `none`, leaving `F` and
`CAUSE` alone, and otherwise faults, writing `F` and `CAUSE` and nothing else. -/
inductive Ending (s : State) : Cause → State → Prop where
  /-- it answers FLT = 0; its own effect on the other elements is in `u` -/
  | completed (u : State) (y : Word) (hf : u.f = s.f) (hc : u.cause = s.cause)
      (hr : u.responses = s.responses) : Ending s .none (u.answer false y)
  /-- it answers FLT = 1 and `raise Fault(c)` is its whole effect -/
  | raised (c : Cause) (hc : c ≠ .none) : Ending s c ({ s with f := true, cause := c }.answer true 0)

/-- While no cause is recorded, the cause left is the cause raised. -/
theorem Ending.cause_eq {s t : State} {c : Cause} (h : Ending s c t) (hs : s.cause = .none) :
    t.cause = c := by
  cases h with
  | completed u y hf hc hr => exact hc.trans hs
  | raised c hc => rfl

/-- The check that decides a command's answer decides its cause: `exec_effect` with the cause named. -/
theorem exec_ends {s : State} (hf : s.f = false) (i : Instr) :
    ∃ t, exec i s = .next t ∧ Ending s (commandCause i s) t := by
  cases i with
  | xor a b => exact ⟨_, exec_xor hf a b, .completed s _ rfl rfl rfl⟩
  | add a b => exact ⟨_, exec_add hf a b, .completed s _ rfl rfl rfl⟩
  | popc a => exact ⟨_, exec_popc hf a, .completed s _ rfl rfl rfl⟩
  | rds => exact ⟨_, exec_rds s, .completed s _ rfl rfl rfl⟩
  | rol a n =>
    simp only [commandCause]
    split_ifs with hn
    · exact ⟨_, exec_rol_gt hf a hn, .raised _ nofun⟩
    · exact ⟨_, exec_rol_le hf a (Nat.not_lt.1 hn), .completed s _ rfl rfl rfl⟩
  | kpush v =>
    simp only [commandCause]
    split_ifs with hs hk
    · exact ⟨_, exec_kpush_sealed hf v hs, .raised _ nofun⟩
    · exact ⟨_, exec_kpush_full hf v (Bool.eq_false_of_not_eq_true hs) hk, .raised _ nofun⟩
    · exact ⟨_, exec_kpush_room hf v (Bool.eq_false_of_not_eq_true hs) hk,
        .completed _ _ rfl rfl rfl⟩
  | kseal =>
    simp only [commandCause]
    split_ifs with hs hk
    · exact ⟨_, exec_kseal_sealed hf hs, .raised _ nofun⟩
    · exact ⟨_, exec_kseal_full hf (Bool.eq_false_of_not_eq_true hs) hk,
        .completed _ _ rfl rfl rfl⟩
    · exact ⟨_, exec_kseal_short hf (Bool.eq_false_of_not_eq_true hs) hk, .raised _ nofun⟩
  | enc l r =>
    simp only [commandCause]
    split_ifs with hs
    · exact ⟨_, exec_enc_sealed hf l r hs, .completed _ _ rfl rfl rfl⟩
    · exact ⟨_, exec_enc_unsealed hf l r (Bool.eq_false_of_not_eq_true hs), .raised _ nofun⟩
  | rdt n =>
    simp only [commandCause]
    split_ifs with hbad
    · exact ⟨_, exec_rdt_bad hf hbad, .raised _ nofun⟩
    · obtain ⟨hn, htv⟩ := not_or.1 hbad
      exact ⟨_, exec_rdt_good hf (Nat.not_lt.1 hn) (Bool.eq_true_of_not_eq_false htv),
        .completed s _ rfl rfl rfl⟩

theorem step_issueNext_ends {s : State} (hf : s.f = false) (w : CommandWord) :
    ∃ t, step (issueNext w s) = .next t ∧ Ending s (wordCause w s) t := by
  rw [step_issueNext]
  cases hd : decode w with
  | error e =>
    rw [executeWord_illegal hf hd, wordCause_error hd]
    exact ⟨_, raiseFault_next _ _, .raised _ nofun⟩
  | ok i =>
    rw [executeWord_legal hf hd, wordCause_ok hd]
    exact exec_ends hf i

/-! ## Each cause by its condition (R152): the values of `commandCause`, read backwards -/

/-- No command raises ILLCMD by its own checks. -/
theorem commandCause_ne_illCmd (i : Instr) (s : State) : commandCause i s ≠ .illCmd := by
  cases i <;> simp [commandCause, ite_eq_iff]

theorem commandCause_eq_keyImm_iff (i : Instr) (s : State) :
    commandCause i s = .keyImm ↔ s.sealed = true ∧ ((∃ v, i = .kpush v) ∨ i = .kseal) := by
  cases i <;> simp [commandCause, ite_eq_iff]

theorem commandCause_eq_keyLen_iff (i : Instr) (s : State) :
    commandCause i s = .keyLen ↔ s.sealed = false ∧
      ((∃ v, i = .kpush v) ∧ s.kn = 10 ∨ i = .kseal ∧ s.kn ≠ 10 ∨ ∃ l r, i = .enc l r) := by
  cases i <;> simp [commandCause, ite_eq_iff]

theorem commandCause_eq_rotAmt_iff (i : Instr) (s : State) :
    commandCause i s = .rotAmt ↔ ∃ a n, i = .rol a n ∧ 15 < n.toNat := by
  cases i <;> simp [commandCause, ite_eq_iff]

theorem commandCause_eq_trajLen_iff (i : Instr) (s : State) :
    commandCause i s = .trajLen ↔ ∃ n, i = .rdt n ∧ (10 < n.toNat ∨ s.tv = false) := by
  cases i with
  | rdt n => simp [commandCause, or_iff_not_imp_left]
  | _ => simp [commandCause, ite_eq_iff]

/-! ## The status word of the faulted state (R28, R155) -/

/-- The fields of R28 do not overlap and fit in 32 bits. -/
theorem statusWord_toNat (s : State) :
    (statusWord s).toNat = s.sealed.toNat + 2 * s.tv.toNat + 4 * s.f.toNat + 16 * s.kn.val
      + 256 * (causeCode s.cause).toNat := by
  have hsealed := Bool.toNat_le s.sealed
  have htv := Bool.toNat_le s.tv
  have hf := Bool.toNat_le s.f
  have hkn := s.kn.isLt
  have hcause := (causeCode s.cause).isLt
  rw [statusWord, BitVec.toNat_ofNat, Nat.mod_eq_of_lt]
  omega

/-- R155: bit 2 of `STATUS` is `F`. -/
theorem statusWord_getLsbD_two (s : State) : (statusWord s).getLsbD 2 = s.f := by
  have hsealed := Bool.toNat_le s.sealed
  have htv := Bool.toNat_le s.tv
  have hbit : (statusWord s).toNat / 2 ^ 2 % 2 = s.f.toNat := by
    have hf := Bool.toNat_le s.f
    rw [statusWord_toNat]
    omega
  rw [BitVec.getLsbD, Nat.testBit_eq_decide_div_mod_eq, hbit]
  cases s.f <;> rfl

/-- R155: bits 11:8 of `STATUS` are the code of `CAUSE`. -/
theorem statusWord_extractLsb'_cause (s : State) : (statusWord s).extractLsb' 8 4 = causeCode s.cause := by
  have hsealed := Bool.toNat_le s.sealed
  have htv := Bool.toNat_le s.tv
  have hf := Bool.toNat_le s.f
  have hkn := s.kn.isLt
  have hcause := (causeCode s.cause).isLt
  apply BitVec.eq_of_toNat_eq
  rw [BitVec.extractLsb'_toNat, Nat.shiftRight_eq_div_pow, statusWord_toNat]
  omega

/-! ## Staying in the faulted state (R154, R156) -/

theorem sameElements_answer (s : State) (flt : Bool) (y : Word) : sameElements s (s.answer flt y) :=
  ⟨rfl, rfl, rfl, rfl, rfl, rfl, rfl⟩

/-- R154, R155: while `F = 1` a word only adds its response. -/
theorem executeWord_faulted_answers {w : CommandWord} {s t : State} (hf : s.f = true)
    (h : executeWord w s = .next t) : ∃ flt y, t = s.answer flt y := by
  by_cases hw : w = rdsWord
  · rw [hw, executeWord_rdsWord, exec_rds, next_inj] at h
    exact ⟨_, _, h.symm⟩
  · rw [executeWord_faulted hf hw, refuse_next, next_inj] at h
    exact ⟨_, _, h.symm⟩

/-! ## The obligations -/

/-- Settles O34: the cause left is the one the word raises. That is ILLCMD for a word that does not decode,
and otherwise a cause of the decoded command, each with its condition. -/
theorem eachCauseExactlyWhenItsConditionHolds : Obligations.EachCauseExactlyWhenItsConditionHolds := by
  refine ⟨by decide, fun w s hf hs => ?_⟩
  obtain ⟨t, hstep, hend⟩ := step_issueNext_ends hf w
  refine ⟨t, hstep, ?_⟩
  rw [hend.cause_eq hs, wellFormedWord_false_iff_decode_error]
  cases hd : decode w with
  | error e => simp [wordCause_error hd]
  | ok i =>
    rw [wordCause_ok hd]
    simp only [Except.ok.injEq]
    exact ⟨iff_of_false (commandCause_ne_illCmd i s) nofun, commandCause_eq_keyImm_iff i s,
      commandCause_eq_keyLen_iff i s, commandCause_eq_rotAmt_iff i s, commandCause_eq_trajLen_iff i s⟩

/-- Settles O35: the two endings of a word are the two values of FLT. -/
theorem faultsArePrecise : Obligations.FaultsArePrecise := by
  intro w s hf
  obtain ⟨t, hstep, hend⟩ := step_issueNext_ends hf w
  generalize wordCause w s = c at hend
  cases hend with
  | completed u y huf huc hur =>
    exact ⟨_, ⟨false, y⟩, hstep, by rw [answer_responses, hur], nofun, fun _ => ⟨huf.trans hf, huc⟩⟩
  | raised c hc => exact ⟨_, ⟨true, 0⟩, hstep, rfl, fun _ => ⟨rfl, hc, rfl⟩, nofun⟩

/-- Settles O36: R157's first check, on the two sides of the word RDS; `STATUS` shows `F` and `CAUSE`. -/
theorem faultedStateRefusesAllButRds : Obligations.FaultedStateRefusesAllButRds := by
  refine ⟨fun w s hf hw => ?_, fun s hf => ⟨step_issueNext_rdsWord s, ?_, ?_⟩,
    fun i s hf hi => exec_faulted hf hi⟩
  · rw [step_issueNext, executeWord_faulted hf hw]
    rfl
  · rw [statusWord_getLsbD_two, hf]
  · exact statusWord_extractLsb'_cause s

/-- Settles O37: without reset a step from `F = 1` idles or adds a response; reset gives R33's record. -/
theorem onlyResetLeavesTheFaultedState : Obligations.OnlyResetLeavesTheFaultedState := by
  constructor
  · intro s t hf hreset hstep
    rcases step_cases hstep with ⟨-, rfl⟩ | ⟨rest, hp, -⟩ | ⟨w, rest, -, hw⟩
    · exact ⟨rfl, rfl, rfl, rfl, rfl, rfl, rfl⟩
    · exact absurd (congrArg List.head? hp) hreset
    · obtain ⟨flt, y, rfl⟩ := executeWord_faulted_answers (s := { s with pending := rest }) hf hw
      exact sameElements_answer _ flt y
  · exact fun s rest hp => ⟨_, step_reset hp, rfl, rfl, rfl, reset_k_getElem⟩

end Sys2Proof.Machine

/-! # Proofs: encoding and decoding (30_encoding.md R65, R69) -/

namespace Sys2Proof

/-! ## Decoding undoes encoding -/

/-- R69: every command is read back from its word, whose reserved fields are zero. -/
@[simp] theorem decode_encode (i : Instr) : decode (encode i) = .ok i := by
  cases i with
  | xor a b => simp [encode, decode_xor]
  | add a b => simp [encode, decode_add]
  | rol a n => simp [encode, decode_rol]
  | popc a => simp [encode, decode_popc]
  | kpush v => simp [encode, decode_kpush]
  | kseal => simp [encode, decode_kseal]
  | enc l r => simp [encode, decode_enc]
  | rdt n => simp [encode, decode_rdt]
  | rds => simp [encode, decode_rds]

/-- Settles O2: one row of R65 for each command. -/
theorem decodeOfEncodeIsTheCommand : Obligations.DecodeOfEncodeIsTheCommand :=
  fun i _ => decode_encode i

/-! ## Encoding undoes decoding -/

/-- A word is put together from its fields, however these are written. -/
theorem assembleFields_eq {w : CommandWord} {op idx : Nibble} {a b : HalfWord} (hop : opField w = op)
    (hidx : idxField w = idx) (ha : aField w = a) (hb : bField w = b) : assembleFields op idx a b = w := by
  rw [← hop, ← hidx, ← ha, ← hb, assembleFields_fields]

/-- What a decodable word of a row says: its reserved fields are zero and it is the row's command. -/
theorem legal_of_decode_ok {w : CommandWord} {legal : Prop} [Decidable legal] {i j : Instr}
    (hrow : decode w = if legal then .ok j else .error .reservedField) (h : decode w = .ok i) :
    legal ∧ j = i := by
  rw [hrow] at h
  split_ifs at h with hlegal
  exact ⟨hlegal, Except.ok.inj h⟩

/-- R65: the row's mask leaves only the operands open, so the command determines the word. -/
theorem encode_of_decode {w : CommandWord} {i : Instr} (h : decode w = .ok i) : encode i = w := by
  rcases opcode_reserved_or_row (opField w) with hop | hop | hop | hop | hop | hop | hop | hop | hop | hop
  · rw [decode_reserved hop] at h
    cases h
  · obtain ⟨hidx, rfl⟩ := legal_of_decode_ok (decode_xor hop) h
    exact assembleFields_eq hop hidx rfl rfl
  · obtain ⟨hidx, rfl⟩ := legal_of_decode_ok (decode_add hop) h
    exact assembleFields_eq hop hidx rfl rfl
  · obtain ⟨hidx, rfl⟩ := legal_of_decode_ok (decode_rol hop) h
    exact assembleFields_eq hop hidx rfl rfl
  · obtain ⟨⟨hidx, hb⟩, rfl⟩ := legal_of_decode_ok (decode_popc hop) h
    exact assembleFields_eq hop hidx rfl hb
  · obtain ⟨⟨hidx, hb⟩, rfl⟩ := legal_of_decode_ok (decode_kpush hop) h
    exact assembleFields_eq hop hidx rfl hb
  · obtain ⟨⟨hidx, ha, hb⟩, rfl⟩ := legal_of_decode_ok (decode_kseal hop) h
    exact assembleFields_eq hop hidx ha hb
  · obtain ⟨hidx, rfl⟩ := legal_of_decode_ok (decode_enc hop) h
    exact assembleFields_eq hop hidx rfl rfl
  · obtain ⟨⟨ha, hb⟩, rfl⟩ := legal_of_decode_ok (decode_rdt hop) h
    exact assembleFields_eq hop rfl ha hb
  · obtain ⟨⟨hidx, ha, hb⟩, rfl⟩ := legal_of_decode_ok (decode_rds hop) h
    exact assembleFields_eq hop hidx ha hb

/-- Settles O3: each row of R65, its reserved fields zero. -/
theorem encodeOfDecodeIsTheWord : Obligations.EncodeOfDecodeIsTheWord :=
  fun _ _ => encode_of_decode

/-! ## The rows of the opcode map -/

/-- R65: every row tests the whole opcode field, for its own opcode. -/
theorem rows_opField : ∀ r ∈ rows, opField r.mask = 0xF#4 ∧ opField r.pattern = r.op := by
  simp [rows, opField]

theorem op_of_match {w : CommandWord} {r : Row} (hr : r ∈ rows) (h : w &&& r.mask = r.pattern) :
    opField w = r.op := by
  obtain ⟨hmask, hpattern⟩ := rows_opField r hr
  obtain ⟨hop, -, -, -⟩ := (masked_iff w r.mask r.pattern).1 h
  rw [hmask, nibble_and_all_ones, hpattern] at hop
  exact hop

/-- Settles O5: a word that matches a row has that row's opcode, and a word has one opcode. -/
theorem opcodeRowsAreDisjoint : Obligations.OpcodeRowsAreDisjoint :=
  fun _ _ _ hr hq hwr hwq => (op_of_match hr hwr).symm.trans (op_of_match hq hwq)

/-- Settles O1: nine written-out words, evaluated. -/
theorem wordsDecodeAsWritten : Obligations.WordsDecodeAsWritten := by
  unfold Obligations.WordsDecodeAsWritten
  decide

/-! ## The opcode table's numbering -/

theorem decode_of_decodeTableWord {n w : Nat} {i : Instr} (h : decodeTableWord n w = some i) :
    decode (tableWord n w) = .ok i := by
  rw [decodeTableWord] at h
  split at h
  · next hd => rw [hd, Option.some.inj h]
  · cases h

end Sys2Proof

/-! # Proofs: one command word, in every phase (60_exceptions.md R157, 70_reset_and_hazards.md R178) -/

namespace Sys2Proof.Machine

/-! ## A decodable word runs its command -/

/-- R157: the check of `F` before decoding agrees with the one inside each command. -/
theorem executeWord_decoded {w : CommandWord} {i : Instr} (s : State) (hd : decode w = .ok i) :
    executeWord w s = exec i s := by
  cases hf : s.f with
  | false => exact executeWord_legal hf hd
  | true =>
    by_cases hi : i = .rds
    · obtain rfl : w = rdsWord := (encode_of_decode hd).symm.trans (by rw [hi]; rfl)
      rw [hi, executeWord_rdsWord]
    · have hw : w ≠ rdsWord := by
        rintro rfl
        exact hi (Except.ok.inj (hd.symm.trans decode_rdsWord))
      rw [executeWord_faulted hf hw, exec_faulted hf hi]

/-- The host issues the word of a command. -/
theorem perform_encode (i : Instr) (s : State) : perform (.issue (encode i)) s = exec i s :=
  executeWord_decoded s (decode_encode i)

/-- Settles O6: a step takes the word from the queue; the word placed by `withFetchWord` is taken at once. -/
theorem stepRunsTheDecodedCommand : Obligations.StepRunsTheDecodedCommand := by
  constructor
  · intro s w rest i hp hd
    rw [step_issue hp, executeWord_decoded _ hd]
  · intro s w i h
    rw [State.withFetchWord, step_issueNext, executeWord_decoded _ (decode_of_decodeTableWord h)]

/-- The one word that is executed while `F = 1` decodes. -/
theorem ne_rdsWord_of_error {w : CommandWord} {e : Illegal} (hd : decode w = .error e) : w ≠ rdsWord := by
  rintro rfl
  cases hd.symm.trans decode_rdsWord

/-! ## Everything one command word can do -/

/-- The ways a command word ends. -/
inductive WordEffect (w : CommandWord) (s : State) : State → Prop where
  /-- it is executed as the command it decodes to -/
  | ran {t : State} (i : Instr) (hd : decode w = .ok i) (he : Effect i s t) : WordEffect w s t
  /-- it is illegal (R66) -/
  | illegal (hf : s.f = false) : WordEffect w s ({ s with f := true, cause := .illCmd }.answer true 0)
  /-- it is refused before it is decoded (R154) -/
  | refused (hf : s.f = true) : WordEffect w s (s.answer true 0)

theorem executeWord_effect {w : CommandWord} {s t : State} (h : executeWord w s = .next t) :
    WordEffect w s t := by
  cases hd : decode w with
  | ok i =>
    obtain ⟨u, hu, he⟩ := exec_effect i s
    rw [executeWord_decoded s hd, hu, next_inj] at h
    exact h ▸ .ran i hd he
  | error e =>
    cases hf : s.f with
    | false =>
      rw [executeWord_illegal hf hd, raiseFault_next, next_inj] at h
      exact h ▸ .illegal hf
    | true =>
      rw [executeWord_faulted hf (ne_rdsWord_of_error hd), refuse_next, next_inj] at h
      exact h ▸ .refused hf

end Sys2Proof.Machine

/-! # Proofs: how a command ends, as an equation (60_exceptions.md R152, R153, R157) -/

namespace Sys2Proof.Machine

/-- What a command that completes leaves, but for its response. -/
def completedState (i : Instr) (s : State) : State :=
  match i with
  | .kpush v => { s with k := memWriteK s.k s.kn.val v, kn := s.kn + 1 }
  | .kseal   => { s with sealed := true }
  | .enc l r => { s with t := some (trajectory (schedule s) ⟨l, r⟩), tv := true }
  | .xor _ _ | .add _ _ | .rol _ _ | .popc _ | .rdt _ | .rds => s

/-- What a command that completes answers. -/
def completedWord (i : Instr) (s : State) : Word :=
  match i with
  | .xor a b => zext32 (xor16 a b)
  | .add a b => zext32 (add16 a b)
  | .rol a n => zext32 (rotl16 a (n.setWidth 4))
  | .popc a  => zext32 (countHalf a)
  | .kpush _ | .kseal => 0
  | .enc l r => pack (trajectory (schedule s) ⟨l, r⟩)[10]
  | .rdt n   => pack (memReadT s.t n.toNat)
  | .rds     => statusWord s

/-- While `F = 0` the cause decides: without one the command completes, else it faults. -/
theorem exec_running {s : State} (hf : s.f = false) (i : Instr) :
    exec i s = if commandCause i s = .none then .next ((completedState i s).answer false (completedWord i s))
      else raiseFault (commandCause i s) s := by
  cases i with
  | xor a b => exact exec_xor hf a b
  | add a b => exact exec_add hf a b
  | popc a => exact exec_popc hf a
  | rds => exact exec_rds s
  | rol a n =>
    rcases Nat.lt_or_ge 15 n.toNat with hn | hn
    · simpa [commandCause, hn] using exec_rol_gt hf a hn
    · exact (exec_rol_le hf a hn).trans (if_pos (by simp [commandCause, Nat.not_lt.2 hn])).symm
  | kpush v =>
    cases hs : s.sealed with
    | true => simpa [commandCause, hs] using exec_kpush_sealed hf v hs
    | false =>
      by_cases hk : s.kn = 10
      · simpa [commandCause, hs, hk] using exec_kpush_full hf v hs hk
      · exact (exec_kpush_room hf v hs hk).trans (if_pos (by simp [commandCause, hs, hk])).symm
  | kseal =>
    cases hs : s.sealed with
    | true => simpa [commandCause, hs] using exec_kseal_sealed hf hs
    | false =>
      by_cases hk : s.kn = 10
      · exact (exec_kseal_full hf hs hk).trans (if_pos (by simp [commandCause, hs, hk])).symm
      · simpa [commandCause, hs, hk] using exec_kseal_short hf hs hk
  | enc l r =>
    cases hs : s.sealed with
    | true => exact (exec_enc_sealed hf l r hs).trans (if_pos (by simp [commandCause, hs])).symm
    | false => simpa [commandCause, hs] using exec_enc_unsealed hf l r hs
  | rdt n =>
    by_cases hbad : 10 < n.toNat ∨ s.tv = false
    · simpa [commandCause, hbad] using exec_rdt_bad hf hbad
    · obtain ⟨hn, htv⟩ := not_or.1 hbad
      exact (exec_rdt_good hf (Nat.not_lt.1 hn) (Bool.eq_true_of_not_eq_false htv)).trans
        (if_pos (if_neg hbad)).symm

theorem exec_completed {i : Instr} {s : State} (hf : s.f = false) (hc : commandCause i s = .none) :
    exec i s = .next ((completedState i s).answer false (completedWord i s)) := by
  rw [exec_running hf, if_pos hc]

theorem exec_raised {i : Instr} {s : State} (hf : s.f = false) (hc : commandCause i s ≠ .none) :
    exec i s = raiseFault (commandCause i s) s := by
  rw [exec_running hf, if_neg hc]

end Sys2Proof.Machine

/-! # Proofs: the invariants (10_state.md section 2, 42_cipher.md R104, 60_exceptions.md R162) -/

namespace Sys2Proof.Machine

/-! ## The invariants of the elements -/

/-- The invariants speak of the elements only. -/
theorem State.Inv.withPending {s : State} (h : s.Inv) (q : List HostAction) : { s with pending := q }.Inv :=
  ⟨h.keysHeld, h.sealedFull, h.trajHeld, h.trajSealed, h.causeIffF⟩

theorem State.Inv.answer {s : State} (h : s.Inv) (flt : Bool) (y : Word) : (s.answer flt y).Inv :=
  ⟨h.keysHeld, h.sealedFull, h.trajHeld, h.trajSealed, h.causeIffF⟩

/-- R27, R153: a fault latches `F` with its cause. -/
theorem State.Inv.latch {s : State} (h : s.Inv) {c : Cause} (hc : c ≠ .none) :
    { s with f := true, cause := c }.Inv :=
  ⟨h.keysHeld, h.sealedFull, h.trajHeld, h.trajSealed, iff_of_false nofun hc⟩

/-- R21, R90: the key goes to the first free entry, and while the schedule is open there is no trajectory. -/
theorem State.Inv.push {s : State} (h : s.Inv) (hs : s.sealed = false) (hk : s.kn ≠ 10) (v : HalfWord) :
    { s with k := memWriteK s.k s.kn.val v, kn := s.kn + 1 }.Inv where
  keysHeld i := by
    have hlt : s.kn.val < 10 := Fin.val_lt_last hk
    exact (memWriteK_keeps_prefix s.k s.kn.val v hlt h.keysHeld i).trans (by rw [kn_add_one_val hk])
  sealedFull hsealed := absurd (hs.symm.trans hsealed) nofun
  trajHeld := h.trajHeld
  trajSealed := h.trajSealed
  causeIffF := h.causeIffF

theorem State.Inv.seal {s : State} (h : s.Inv) (hk : s.kn = 10) : { s with sealed := true }.Inv :=
  ⟨h.keysHeld, fun _ => hk, h.trajHeld, fun _ => rfl, h.causeIffF⟩

theorem State.Inv.store {s : State} (h : s.Inv) (hs : s.sealed = true) (tr : Trajectory) :
    { s with t := some tr, tv := true }.Inv :=
  ⟨h.keysHeld, h.sealedFull, rfl, fun _ => hs, h.causeIffF⟩

theorem reset_inv : State.reset.Inv where
  keysHeld i := by simp [State.reset]
  sealedFull := nofun
  trajHeld := rfl
  trajSealed := nofun
  causeIffF := iff_of_true rfl rfl

theorem Effect.keeps_inv {i : Instr} {s t : State} (e : Effect i s t) (h : s.Inv) : t.Inv := by
  cases e with
  | answered y _ => exact h.answer false y
  | refused _ _ => exact h.answer true 0
  | faulted _ c hc _ => exact (h.latch hc).answer true 0
  | pushed _ hs hk v _ => exact (h.push hs hk v).answer false 0
  | sealing _ _ hk _ => exact (h.seal hk).answer false 0
  | encrypted _ hs l r _ => exact (h.store hs _).answer false _

theorem WordEffect.keeps_inv {w : CommandWord} {s t : State} (e : WordEffect w s t) (h : s.Inv) : t.Inv := by
  cases e with
  | ran i _ he => exact he.keeps_inv h
  | illegal _ => exact (h.latch (c := .illCmd) nofun).answer true 0
  | refused _ => exact h.answer true 0

/-- Settles O41: idling keeps the state, reset gives R33's elements, and each effect of a word keeps the invariants. -/
theorem stepKeepsTheInvariants : Obligations.StepKeepsTheInvariants := by
  intro s t h hstep
  rcases step_cases hstep with ⟨-, rfl⟩ | ⟨rest, -, rfl⟩ | ⟨w, rest, -, hw⟩
  · exact h
  · exact ⟨reset_inv.keysHeld, reset_inv.sealedFull, reset_inv.trajHeld, reset_inv.trajSealed, reset_inv.causeIffF⟩
  · exact (executeWord_effect hw).keeps_inv (h.withPending rest)

/-! ## The trajectory invariant -/

/-- A state that holds no trajectory. -/
theorem trajectoryInv_of_none {s : State} (h : s.t = none) : s.TrajectoryInv :=
  fun _ htr => absurd (h.symm.trans htr) nofun

/-- R25, R162: while the schedule is open there is no trajectory. -/
theorem State.Inv.t_none {s : State} (h : s.Inv) (hs : s.sealed = false) : s.t = none := by
  have htv : s.tv = false := Bool.eq_false_of_not_eq_true fun htv => absurd (hs.symm.trans (h.trajSealed htv)) nofun
  exact Option.isSome_eq_false_iff.1 (h.trajHeld.trans htv) |> Option.isNone_iff_eq_none.1

/-- R104: what an encryption writes is a trajectory of the keys in `K`. -/
theorem trajectoryInv_store (s : State) (p : Block) :
    { s with t := some (trajectory (schedule s) p), tv := true }.TrajectoryInv := by
  intro tr htr i key hk
  obtain rfl := Option.some.inj htr
  rw [trajectory_succ, schedule_getElem_of_some (s := s) hk]

theorem Effect.keeps_trajectoryInv {i : Instr} {s t : State} (e : Effect i s t) (hinv : s.Inv)
    (h : s.TrajectoryInv) : t.TrajectoryInv := by
  cases e with
  | answered _ _ => exact h
  | refused _ _ => exact h
  | faulted _ _ _ _ => exact h
  | pushed _ hs _ _ _ => exact trajectoryInv_of_none (hinv.t_none hs)
  | sealing _ _ _ _ => exact h
  | encrypted _ _ l r _ => exact trajectoryInv_store s ⟨l, r⟩

theorem WordEffect.keeps_trajectoryInv {w : CommandWord} {s t : State} (e : WordEffect w s t) (hinv : s.Inv)
    (h : s.TrajectoryInv) : t.TrajectoryInv := by
  cases e with
  | ran i _ he => exact he.keeps_trajectoryInv hinv h
  | illegal _ => exact h
  | refused _ => exact h

/-- Settles O28: only ENC writes `T`, with a trajectory of the keys in `K`; KPUSH changes `K` only while `T` is
empty. -/
theorem stepKeepsTrajectoryRounds : Obligations.StepKeepsTrajectoryRounds := by
  intro s t hinv h hstep
  rcases step_cases hstep with ⟨-, rfl⟩ | ⟨rest, -, rfl⟩ | ⟨w, rest, -, hw⟩
  · exact h
  · exact trajectoryInv_of_none rfl
  · exact (executeWord_effect hw).keeps_trajectoryInv (hinv.withPending rest) h

/-- Settles O42: after reset no key entry and no trajectory is held. -/
theorem invariantsHoldAfterReset : Obligations.InvariantsHoldAfterReset :=
  ⟨reset_inv, trajectoryInv_of_none rfl⟩

/-! ## Reset and idling -/

/-- Settles O40: R33's elements, with the two records of the host kept. -/
theorem resetGivesTheResetState : Obligations.ResetGivesTheResetState :=
  fun _ _ hp => ⟨_, step_reset hp, rfl, rfl⟩

/-- Settles O45: the queue is empty. -/
theorem nothingPresentedChangesNothing : Obligations.NothingPresentedChangesNothing :=
  fun _ => step_idle

/-! ## Who writes what (R20, R92, R93) -/

/-- Settles O33: by the ways a command ends; only the fault changes `F`. -/
theorem elementsWrittenOnlyByTheirCommands : Obligations.ElementsWrittenOnlyByTheirCommands := by
  intro i s t h
  obtain ⟨u, hu, he⟩ := exec_effect i s
  obtain rfl : u = t := next_inj.1 (hu.symm.trans h)
  cases he with
  | answered y _ =>
    exact ⟨fun _ => ⟨rfl, rfl⟩, fun _ => rfl, fun _ => ⟨rfl, rfl⟩, fun _ => rfl, fun hne => absurd rfl hne, rfl⟩
  | refused _ _ =>
    exact ⟨fun _ => ⟨rfl, rfl⟩, fun _ => rfl, fun _ => ⟨rfl, rfl⟩, fun _ => rfl, fun hne => absurd rfl hne, rfl⟩
  | faulted hf c _ _ =>
    exact ⟨fun _ => ⟨rfl, rfl⟩, fun _ => rfl, fun _ => ⟨rfl, rfl⟩, fun hsame => absurd (hsame.trans hf) nofun,
      fun _ => rfl, rfl⟩
  | pushed _ _ _ v hi =>
    exact ⟨fun hne => absurd hi (hne v), fun _ => rfl, fun _ => ⟨rfl, rfl⟩, fun _ => rfl,
      fun hne => absurd rfl hne, rfl⟩
  | sealing _ _ _ hi =>
    exact ⟨fun _ => ⟨rfl, rfl⟩, fun hne => absurd hi hne, fun _ => ⟨rfl, rfl⟩, fun _ => rfl,
      fun hne => absurd rfl hne, rfl⟩
  | encrypted _ _ l r hi =>
    exact ⟨fun _ => ⟨rfl, rfl⟩, fun _ => rfl, fun hne => absurd hi (hne l r), fun _ => rfl,
      fun hne => absurd rfl hne, rfl⟩

/-- R90, R91: a sealed schedule is neither written nor sealed again. -/
theorem Effect.keeps_sealed_keys {i : Instr} {s t : State} (e : Effect i s t) (h : s.sealed = true) :
    t.k = s.k ∧ t.kn = s.kn ∧ t.sealed = true := by
  cases e with
  | pushed _ hs _ _ _ => exact absurd (hs.symm.trans h) nofun
  | sealing _ hs _ _ => exact absurd (hs.symm.trans h) nofun
  | _ => exact ⟨rfl, rfl, h⟩

theorem WordEffect.keeps_sealed_keys {w : CommandWord} {s t : State} (e : WordEffect w s t)
    (h : s.sealed = true) : t.k = s.k ∧ t.kn = s.kn ∧ t.sealed = true := by
  cases e with
  | ran i _ he => exact he.keeps_sealed_keys h
  | illegal _ => exact ⟨rfl, rfl, h⟩
  | refused _ => exact ⟨rfl, rfl, h⟩

/-- Settles O19: without reset a step idles or executes a word. -/
theorem sealedKeysNeverChange : Obligations.SealedKeysNeverChange := by
  intro s t h hreset hstep
  rcases step_cases hstep with ⟨-, rfl⟩ | ⟨rest, hp, -⟩ | ⟨w, rest, -, hw⟩
  · exact ⟨rfl, rfl, h⟩
  · exact absurd (congrArg List.head? hp) hreset
  · exact (executeWord_effect hw).keeps_sealed_keys h

/-- R93: no check reads an entry of `K`. -/
theorem commandCause_withK (i : Instr) (s : State) (k' : Vector (Option HalfWord) 10) :
    commandCause i { s with k := k' } = commandCause i s := by
  cases i <;> rfl

/-- R93: of the commands that complete, ENC alone answers or writes something that depends on `K`. -/
theorem completed_withK {i : Instr} (henc : ∀ l r, i ≠ .enc l r) (s : State) (k' : Vector (Option HalfWord) 10) :
    completedWord i { s with k := k' } = completedWord i s ∧
      completedState i { s with k := k' } =
        { completedState i s with k := (completedState i { s with k := k' }).k } := by
  cases i with
  | enc l r => exact absurd rfl (henc l r)
  | _ => exact ⟨rfl, rfl⟩

/-- R20: of the commands that complete, KPUSH alone writes `K`. -/
theorem completedState_k {i : Instr} (hpush : ∀ v, i ≠ .kpush v) (s : State) : (completedState i s).k = s.k := by
  cases i with
  | kpush v => exact absurd rfl (hpush v)
  | _ => rfl

/-- Settles O20: the check, the answer and the other elements written do not depend on `K`. -/
theorem keysAffectNoResponseButEncs : Obligations.KeysAffectNoResponseButEncs := by
  intro i s k' henc
  rcases Bool.eq_false_or_eq_true s.f with hf | hf
  · by_cases hi : i = .rds
    · rw [hi]
      exact ⟨_, _, exec_rds s, exec_rds _, rfl, fun _ => ⟨rfl, rfl⟩⟩
    · exact ⟨_, _, exec_faulted hf hi, exec_faulted (s := { s with k := k' }) hf hi, rfl, fun _ => ⟨rfl, rfl⟩⟩
  · have hcause := commandCause_withK i s k'
    by_cases hc : commandCause i s = .none
    · obtain ⟨hword, hstate⟩ := completed_withK henc s k'
      refine ⟨_, _, exec_completed hf hc, exec_completed (s := { s with k := k' }) hf (hcause.trans hc), ?_,
        fun hpush => ⟨completedState_k hpush { s with k := k' }, completedState_k hpush s⟩⟩
      rw [hword, hstate]
      rfl
    · refine ⟨_, _, exec_raised hf hc, exec_raised (s := { s with k := k' }) hf (hcause ▸ hc), ?_,
        fun _ => ⟨rfl, rfl⟩⟩
      rw [hcause]
      rfl

/-! ## Phases (R162) -/

theorem phase_faulted_iff {s : State} : phase s = .faulted ↔ s.f = true := by
  cases hf : s.f <;> cases hs : s.sealed <;> simp [phase, hf, hs]

theorem phase_sealed_iff {s : State} : phase s = .sealed ↔ s.f = false ∧ s.sealed = true := by
  cases hf : s.f <;> cases hs : s.sealed <;> simp [phase, hf, hs]

theorem phase_load_iff {s : State} : phase s = .load ↔ s.f = false ∧ s.sealed = false := by
  cases hf : s.f <;> cases hs : s.sealed <;> simp [phase, hf, hs]

/-- R23, R91: only KSEAL seals, with ten keys. -/
theorem Effect.sealed_only_by_kseal {i : Instr} {s t : State} (e : Effect i s t) (hs : s.sealed = false)
    (ht : t.sealed = true) : i = .kseal ∧ s.kn = 10 := by
  cases e with
  | sealing _ _ hk hi => exact ⟨hi, hk⟩
  | _ => exact absurd (hs.symm.trans ht) nofun

theorem WordEffect.sealed_only_by_kseal {w : CommandWord} {s t : State} (e : WordEffect w s t)
    (hs : s.sealed = false) (ht : t.sealed = true) : w = encode .kseal ∧ s.kn = 10 := by
  cases e with
  | ran i hd he =>
    obtain ⟨rfl, hk⟩ := he.sealed_only_by_kseal hs ht
    exact ⟨(encode_of_decode hd).symm, hk⟩
  | illegal _ => exact absurd (hs.symm.trans ht) nofun
  | refused _ => exact absurd (hs.symm.trans ht) nofun

/-- R162: a step from LOAD to SEALED executes the word KSEAL on ten keys. -/
theorem step_load_to_sealed {s t : State} (hstep : step s = .next t) (hs : s.sealed = false)
    (ht : t.sealed = true) : s.kn = 10 ∧ s.pending.head? = some (.issue (encode .kseal)) := by
  rcases step_cases hstep with ⟨-, rfl⟩ | ⟨rest, -, rfl⟩ | ⟨w, rest, hp, hw⟩
  · exact absurd (hs.symm.trans ht) nofun
  · exact absurd ht nofun
  · obtain ⟨rfl, hk⟩ := (executeWord_effect hw).sealed_only_by_kseal hs ht
    exact ⟨hk, by rw [hp]; rfl⟩

/-- R156: without reset `F` stays set. -/
theorem step_keeps_f {s t : State} (hstep : step s = .next t) (hreset : s.noResetNext) (hf : s.f = true) :
    t.f = true := by
  obtain ⟨-, -, -, -, -, hsame, -⟩ := onlyResetLeavesTheFaultedState.1 s t hf hreset hstep
  exact hsame.trans hf

/-- Settles O38: `F` is latched and SEALED kept until reset, and only KSEAL seals. -/
theorem phaseTransitions : Obligations.PhaseTransitions := by
  intro s t hstep
  refine ⟨fun hp => ?_, fun hreset hs => ?_, fun hreset hs => ?_, fun hs ht => ?_⟩
  · obtain ⟨rest, hrest⟩ := List.head?_eq_some_iff.1 hp
    obtain rfl := next_inj.1 ((step_reset hrest).symm.trans hstep)
    rfl
  · exact phase_faulted_iff.2 (step_keeps_f hstep hreset (phase_faulted_iff.1 hs))
  · obtain ⟨-, hsealed⟩ := phase_sealed_iff.1 hs
    obtain ⟨-, -, htsealed⟩ := sealedKeysNeverChange s t hsealed hreset hstep
    rcases Bool.eq_false_or_eq_true t.f with hf | hf
    · exact .inr (phase_faulted_iff.2 hf)
    · exact .inl (phase_sealed_iff.2 ⟨hf, htsealed⟩)
  · obtain ⟨-, hopen⟩ := phase_load_iff.1 hs
    obtain ⟨-, hsealed⟩ := phase_sealed_iff.1 ht
    exact step_load_to_sealed hstep hopen hsealed

end Sys2Proof.Machine

/-! # Proofs: what a run depends on (30_encoding.md R61, 70_reset_and_hazards.md R178, R179) -/

namespace Sys2Proof.Machine

/-! ## One word, whatever the host's records hold -/

/-- The same elements with other records of the host. -/
def State.withHost (s : State) (q : List HostAction) (rs : List Response) : State :=
  { s with pending := q, responses := rs }

theorem withHost_of_sameElements {s s' : State} (h : sameElements s s') :
    s' = s.withHost s'.pending s'.responses := by
  obtain ⟨hk, hkn, hsealed, ht, htv, hf, hcause⟩ := h
  cases s'
  simp_all [State.withHost]

theorem sameElements_withHost (s : State) (q q' : List HostAction) (rs rs' : List Response) :
    sameElements (s.withHost q rs) (s.withHost q' rs') :=
  ⟨rfl, rfl, rfl, rfl, rfl, rfl, rfl⟩

/-- R61, R178: `m` started from the elements of `s` adds the one response `r` and leaves the elements of `u`, whatever
the host's records hold; `F` is set afterwards when it was set or the response has FLT = 1. -/
structure Answers (m : State → Result) (s u : State) (r : Response) : Prop where
  next    : ∀ q rs, m (s.withHost q rs) = .next (u.withHost q (rs ++ [r]))
  y_zero  : r.flt = true → r.y = 0
  latched : u.f = (s.f || r.flt)

theorem commandCause_withHost (i : Instr) (s : State) (q : List HostAction) (rs : List Response) :
    commandCause i (s.withHost q rs) = commandCause i s := by
  cases i <;> rfl

theorem completedWord_withHost (i : Instr) (s : State) (q : List HostAction) (rs : List Response) :
    completedWord i (s.withHost q rs) = completedWord i s := by
  cases i <;> rfl

theorem completedState_withHost (i : Instr) (s : State) (q : List HostAction) (rs : List Response) :
    completedState i (s.withHost q rs) = (completedState i s).withHost q rs := by
  cases i <;> rfl

theorem completedState_f (i : Instr) (s : State) : (completedState i s).f = s.f := by
  cases i <;> rfl

theorem answers_refused {m : State → Result} {s : State} (hf : s.f = true)
    (h : ∀ q rs, m (s.withHost q rs) = refuse (s.withHost q rs)) : Answers m s s ⟨true, 0⟩ :=
  ⟨h, fun _ => rfl, hf.trans (Bool.or_true _).symm⟩

theorem answers_raised {m : State → Result} {s : State} {c : Cause}
    (h : ∀ q rs, m (s.withHost q rs) = raiseFault c (s.withHost q rs)) :
    Answers m s { s with f := true, cause := c } ⟨true, 0⟩ :=
  ⟨h, fun _ => rfl, (Bool.or_true _).symm⟩

/-- R178: neither the check nor the effect of a command reads the host's records. -/
theorem exec_answers (i : Instr) (s : State) : ∃ u r, Answers (exec i) s u r := by
  rcases Bool.eq_false_or_eq_true s.f with hf | hf
  · by_cases hi : i = .rds
    · subst hi
      exact ⟨s, ⟨false, statusWord s⟩, fun _ _ => exec_rds _, nofun, (Bool.or_false _).symm⟩
    · exact ⟨_, _, answers_refused hf fun q rs => exec_faulted (s := s.withHost q rs) hf hi⟩
  · by_cases hc : commandCause i s = .none
    · refine ⟨completedState i s, ⟨false, completedWord i s⟩, fun q rs => ?_, nofun,
        (completedState_f i s).trans (Bool.or_false _).symm⟩
      rw [exec_completed (s := s.withHost q rs) hf ((commandCause_withHost i s q rs).trans hc),
        completedState_withHost, completedWord_withHost]
      rfl
    · refine ⟨_, _, answers_raised (c := commandCause i s) fun q rs => ?_⟩
      rw [← commandCause_withHost i s q rs] at hc ⊢
      exact exec_raised (s := s.withHost q rs) hf hc

/-- R178 for a word: it runs a command, is refused or is illegal, by `F` and by the word itself. -/
theorem executeWord_answers_once (w : CommandWord) (s : State) : ∃ u r, Answers (executeWord w) s u r := by
  cases hd : decode w with
  | ok i =>
    obtain ⟨u, r, hnext, hy, hlatched⟩ := exec_answers i s
    exact ⟨u, r, fun q rs => (executeWord_decoded _ hd).trans (hnext q rs), hy, hlatched⟩
  | error e =>
    rcases Bool.eq_false_or_eq_true s.f with hf | hf
    · exact ⟨_, _, answers_refused hf fun q rs =>
        executeWord_faulted (s := s.withHost q rs) hf (ne_rdsWord_of_error hd)⟩
    · exact ⟨_, _, answers_raised fun q rs => executeWord_illegal (s := s.withHost q rs) hf hd⟩

/-- Settles O43: by what the host presents. -/
theorem everyStepAnswers : Obligations.EveryStepAnswers := by
  refine ⟨fun s => ?_, fun i s => ?_⟩
  · cases hp : s.pending with
    | nil => exact ⟨s, step_idle hp⟩
    | cons a rest =>
      cases a with
      | reset => exact ⟨_, step_reset hp⟩
      | issue w =>
        obtain ⟨u, r, hnext, -, -⟩ := executeWord_answers_once w s
        exact ⟨_, (step_issue hp).trans (hnext rest s.responses)⟩
  · obtain ⟨t, ht, -⟩ := exec_effect i s
    exact ⟨t, ht⟩

/-- Settles O44: a word adds the response that `Answers` names, in the layout of R61. -/
theorem oneResponsePerCommand : Obligations.OneResponsePerCommand := by
  refine ⟨fun w s => ?_, fun r => ⟨?_, ?_⟩⟩
  · obtain ⟨u, r, hnext, hy, -⟩ := executeWord_answers_once w s
    exact ⟨_, r, (step_issueNext w s).trans (hnext s.pending s.responses), rfl, rfl, hy⟩
  · have hy := r.y.isLt
    have hbit : (responseWord r).toNat / 2 ^ 32 % 2 = r.flt.toNat := by
      have hflt := Bool.toNat_le r.flt
      rw [responseWord_toNat]
      omega
    rw [BitVec.getLsbD, Nat.testBit_eq_decide_div_mod_eq, hbit]
    cases r.flt <;> rfl
  · apply BitVec.eq_of_toNat_eq
    have hy := r.y.isLt
    rw [BitVec.extractLsb'_toNat, responseWord_toNat, Nat.shiftRight_zero]
    omega

/-- Settles O46: both states are the same elements with records of the host. -/
theorem responseDependsOnElementsAndWord : Obligations.ResponseDependsOnElementsAndWord := by
  intro w s s' h
  obtain ⟨u, r, hnext, -, -⟩ := executeWord_answers_once w s
  refine ⟨_, _, r, (step_issueNext w s).trans (hnext s.pending s.responses), ?_,
    sameElements_withHost u s.pending s'.pending _ (s'.responses ++ [r]), rfl, rfl⟩
  rw [step_issueNext, withHost_of_sameElements h]
  exact hnext s'.pending s'.responses

/-! ## Runs -/

/-- A step adds to the responses given before, and depends on none of them. -/
theorem step_adds (s : State) : ∃ (u : State) (rs : List Response), ∀ rs₀,
    step { s with responses := rs₀ } = .next { u with responses := rs₀ ++ rs } := by
  obtain ⟨q, hp⟩ : ∃ q, s.pending = q := ⟨_, rfl⟩
  cases q with
  | nil =>
    refine ⟨s, [], fun rs₀ => ?_⟩
    rw [step_idle (s := { s with responses := rs₀ }) hp, List.append_nil]
  | cons a rest =>
    cases a with
    | reset =>
      refine ⟨applyReset { s with pending := rest }, [], fun rs₀ => ?_⟩
      rw [step_reset (s := { s with responses := rs₀ }) hp, List.append_nil]
      rfl
    | issue w =>
      obtain ⟨u, r, hnext, -, -⟩ := executeWord_answers_once w s
      exact ⟨{ u with pending := rest }, [r], fun rs₀ =>
        (step_issue (s := { s with responses := rs₀ }) hp).trans (hnext rest rs₀)⟩

/-- R178 over a run: the elements, the actions left and the responses added do not depend on the responses before. -/
theorem core_run_adds (n : Nat) (s : State) : ∃ (u : State) (rs : List Response), ∀ rs₀,
    Sys2Proof.core.run n { s with responses := rs₀ } = .next { u with responses := rs₀ ++ rs } := by
  induction n generalizing s with
  | zero => exact ⟨s, [], fun rs₀ => (core_run_zero _).trans (by rw [List.append_nil])⟩
  | succ n ih =>
    obtain ⟨v, rs, hstep⟩ := step_adds s
    obtain ⟨u, rs', hrun⟩ := ih v
    refine ⟨u, rs ++ rs', fun rs₀ => ?_⟩
    rw [core_run_next (hstep rs₀), hrun, List.append_assoc]

/-- Settles O47: the second run is the first one with other responses before it. -/
theorem equalInstancesAnswerEqually : Obligations.EqualInstancesAnswerEqually := by
  intro n s s' h hp
  obtain ⟨u, rs, hrun⟩ := core_run_adds n s
  have hs' : s' = { s with responses := s'.responses } := by
    rw [withHost_of_sameElements h, ← hp]
    rfl
  exact ⟨_, _, rs, hrun s.responses, (congrArg (Sys2Proof.core.run n) hs').trans (hrun s'.responses),
    ⟨rfl, rfl, rfl, rfl, rfl, rfl, rfl⟩, rfl, rfl⟩

/-! ## Runs that have gone wrong (R179) -/

/-- One more response. -/
theorem goneWrong_append {s t : State} {r : Response} (h : t.responses = s.responses ++ [r]) :
    t.goneWrong ↔ s.goneWrong ∨ r.flt = true := by
  simp [State.goneWrong, h, or_and_right, exists_or]

/-- R179 over one word: `F` and the responses change together. -/
theorem executeWord_goneWrong_iff {w : CommandWord} {s t : State} (h : s.goneWrong ↔ s.f = true)
    (hw : executeWord w s = .next t) : t.pending = s.pending ∧ (t.goneWrong ↔ t.f = true) := by
  obtain ⟨u, r, hnext, -, hlatched⟩ := executeWord_answers_once w s
  obtain rfl := next_inj.1 ((hnext s.pending s.responses).symm.trans hw)
  refine ⟨rfl, (goneWrong_append rfl).trans ?_⟩
  rw [h, ← Bool.or_eq_true, ← hlatched]
  rfl

theorem step_goneWrong_iff {s t : State} (hreset : ∀ a ∈ s.pending, a ≠ .reset) (h : s.goneWrong ↔ s.f = true)
    (hstep : step s = .next t) : (∀ a ∈ t.pending, a ≠ .reset) ∧ (t.goneWrong ↔ t.f = true) := by
  rcases step_cases hstep with ⟨-, rfl⟩ | ⟨rest, hp, -⟩ | ⟨w, rest, hp, hw⟩
  · exact ⟨hreset, h⟩
  · exact absurd rfl (hreset .reset (by rw [hp]; exact List.mem_cons_self))
  · obtain ⟨hpending, hgone⟩ := executeWord_goneWrong_iff (s := { s with pending := rest }) h hw
    refine ⟨fun a ha => hreset a ?_, hgone⟩
    rw [hpending] at ha
    rw [hp]
    exact List.mem_cons_of_mem _ ha

theorem core_run_goneWrong_iff {n : Nat} {s t : State} (hreset : ∀ a ∈ s.pending, a ≠ .reset)
    (h : s.goneWrong ↔ s.f = true) (hrun : Sys2Proof.core.run n s = .next t) : t.goneWrong ↔ t.f = true := by
  induction n generalizing s with
  | zero =>
    obtain rfl := next_inj.1 ((core_run_zero s).symm.trans hrun)
    exact h
  | succ n ih =>
    obtain ⟨v, hstep⟩ := everyStepAnswers.1 s
    obtain ⟨hreset', h'⟩ := step_goneWrong_iff hreset h hstep
    exact ih hreset' h' ((core_run_next hstep).symm.trans hrun)

/-- Settles O48: `STATUS[2]` is `F`, and each step keeps "FLT = 1 was answered exactly when `F = 1`". -/
theorem runGoneWrongExactlyWhenLatched : Obligations.RunGoneWrongExactlyWhenLatched := by
  intro n s t hreset h hrun
  rw [statusWord_getLsbD_two] at h ⊢
  exact core_run_goneWrong_iff hreset h hrun

end Sys2Proof.Machine

/-! # Proofs: the one-page transition function (70_reset_and_hazards.md R182) -/

namespace Sys2Proof.Machine

/-! ## The ten rounds of the page -/

theorem schedule_getElem (s : State) (i : Fin 10) : (schedule s)[i] = memReadK s.k i :=
  Vector.getElem_ofFn i.isLt

/-- After the first `n` rounds of the page's loop the entries up to `n` are those of R103. -/
theorem summaryRounds_take (st : State) (p : Block) {n : Nat} (hn : n ≤ 10) {j : Nat} (hj : j ≤ n) :
    (((List.finRange 10).take n).foldl (fun t i => t.set (i.val + 1) (rf i (memReadK st.k i) t[i.val]))
      (Vector.replicate 11 p))[j]'(by omega) = roundOutput (schedule st) p j := by
  induction n generalizing j with
  | zero =>
    obtain rfl := Nat.le_zero.1 hj
    simp [roundOutput]
  | succ n ih =>
    have hn' : n < 10 := hn
    rw [List.take_succ_eq_append_getElem (by simpa using hn'), List.foldl_append]
    simp only [List.foldl_cons, List.foldl_nil, List.getElem_finRange, Fin.val_cast]
    rcases Nat.le_succ_iff.1 hj with hlt | rfl
    · rw [Vector.getElem_set_ne _ _ (by omega), ih (by omega) hlt]
    · rw [Vector.getElem_set_self, ih (by omega) le_rfl]
      rw [roundOutput_succ _ _ ⟨n, hn'⟩, schedule_getElem]
      rfl

theorem summaryRounds_eq (st : State) (p : Block) : summaryRounds st p = trajectory (schedule st) p := by
  apply Vector.ext
  intro j hj
  rw [trajectory_getElem _ _ hj, ← summaryRounds_take st p le_rfl (Nat.le_of_lt_succ hj)]
  rfl

/-! ## Which words are legal -/

/-- R66 and the page's `legal` say the same, row by row. -/
theorem summaryLegal_eq_wellFormedWord (w : CommandWord) :
    summaryLegal (opField w).toNat (idxField w) (aField w) (bField w) = wellFormedWord w := by
  rw [wellFormedWord_fields]
  generalize opField w = op
  rcases opcode_reserved_or_row op with h | rfl | rfl | rfl | rfl | rfl | rfl | rfl | rfl | rfl
  · simp only [reservedOpcodes, List.mem_cons, List.not_mem_nil, or_false] at h
    rcases h with rfl | rfl | rfl | rfl | rfl | rfl | rfl <;> simp [summaryLegal, reservedOpcodes]
  all_goals simp [summaryLegal, reservedOpcodes]

/-- A word is illegal or the encoding of a command. -/
theorem illegal_or_encode (w : CommandWord) : wellFormedWord w = false ∨ ∃ i, encode i = w := by
  cases hd : decode w with
  | ok i => exact .inr ⟨i, encode_of_decode hd⟩
  | error e => exact .inl ((wellFormedWord_false_iff_decode_error w).2 ⟨e, hd⟩)

/-! ## The page by the kind of word -/

theorem popcount16_le (a : HalfWord) : popcount16 a ≤ 16 := by
  rw [popcount16_eq_card]
  exact card_finset_fin_le _

/-- R84: the page writes the count as a Word, the command as a HalfWord. -/
theorem zext32_countHalf (a : HalfWord) : zext32 (countHalf a) = BitVec.ofNat 32 (popcount16 a) := by
  have hle := popcount16_le a
  apply BitVec.eq_of_toNat_eq
  rw [zext32_toNat, countHalf_toNat, BitVec.toNat_ofNat]
  omega

theorem extract_opField (w : CommandWord) : w.extractLsb' 36 4 = opField w := rfl
theorem extract_idxField (w : CommandWord) : w.extractLsb' 32 4 = idxField w := rfl
theorem extract_aField (w : CommandWord) : w.extractLsb' 16 16 = aField w := rfl
theorem extract_bField (w : CommandWord) : w.extractLsb' 0 16 = bField w := rfl

theorem summaryStep_faulted {s : State} (hf : s.f = true) (w : CommandWord) :
    summaryStep s w = if (opField w).toNat = 0xC ∧ wellFormedWord w = true then (⟨false, statusWord s⟩, s)
      else (⟨true, 0⟩, s) := by
  rw [← summaryLegal_eq_wellFormedWord]
  exact if_pos hf

theorem summaryStep_illegal {s : State} (hf : s.f = false) {w : CommandWord} (hw : wellFormedWord w = false) :
    summaryStep s w = summaryFault s .illCmd := by
  rw [← summaryLegal_eq_wellFormedWord] at hw
  simp only [summaryStep, extract_opField, extract_idxField, extract_aField, extract_bField, hf, hw]
  rfl

theorem wellFormedWord_encode (i : Instr) : wellFormedWord (encode i) = true := by
  rw [← Bool.not_eq_false, wellFormedWord_false_iff_decode_error, decode_encode]
  rintro ⟨e, he⟩
  cases he

/-- RDS is the one command with opcode `0xC`. -/
theorem opField_encode_eq_rds_iff (i : Instr) : (opField (encode i)).toNat = 0xC ↔ i = .rds := by
  cases i <;> simp [encode]

/-- The page on the word of a command, in the terms of `exec_running`. -/
theorem summaryStep_encode {s : State} (hf : s.f = false) (i : Instr) :
    summaryStep s (encode i) = if commandCause i s = .none then (⟨false, completedWord i s⟩, completedState i s)
      else summaryFault s (commandCause i s) := by
  have hlegal := (summaryLegal_eq_wellFormedWord (encode i)).trans (wellFormedWord_encode i)
  simp only [summaryStep, extract_opField, extract_idxField, extract_aField, extract_bField, hlegal]
  rw [if_neg (by simp [hf]), if_neg (by decide)]
  cases i with
  | xor a b => simp [encode, commandCause, completedWord, completedState]
  | add a b => simp [encode, commandCause, completedWord, completedState]
  | popc a => simp [encode, commandCause, completedWord, completedState, zext32_countHalf]
  | rds => simp [encode, commandCause, completedWord, completedState]
  | rol a n =>
    by_cases hn : 15 < n.toNat
    · simp [encode, commandCause, hn]
    · simp [encode, commandCause, completedWord, completedState, hn]
  | kpush v =>
    rcases Bool.eq_false_or_eq_true s.sealed with hs | hs
    · simp [encode, commandCause, hs]
    · by_cases hk : s.kn = 10
      · simp [encode, commandCause, hs, hk]
      · simp [encode, commandCause, completedWord, completedState, hs, hk]
  | kseal =>
    rcases Bool.eq_false_or_eq_true s.sealed with hs | hs
    · simp [encode, commandCause, hs]
    · by_cases hk : s.kn = 10
      · simp [encode, commandCause, completedWord, completedState, hs, hk]
      · simp [encode, commandCause, hs, hk]
  | enc l r =>
    rcases Bool.eq_false_or_eq_true s.sealed with hs | hs
    · simp [encode, commandCause, completedWord, completedState, hs, summaryRounds_eq]
    · simp [encode, commandCause, hs]
  | rdt n =>
    by_cases hn : 10 < n.toNat
    · simp [encode, commandCause, hn]
    · rcases Bool.eq_false_or_eq_true s.tv with htv | htv
      · simp [encode, commandCause, completedWord, completedState, hn, htv]
      · simp [encode, commandCause, hn, htv]

/-- Settles O49: by `F` and by whether the word is a command's; a command's checks are compared in
`summaryStep_encode`. -/
theorem machineIsTheOnePageFunction : Obligations.MachineIsTheOnePageFunction := by
  intro w s
  rw [step_issueNext]
  rcases illegal_or_encode w with hw | ⟨i, rfl⟩
  · rw [← step_issueNext]
    rcases Bool.eq_false_or_eq_true s.f with hf | hf
    · rw [summaryStep_faulted hf, if_neg (by simp [hw]), step_issueNext_illegal_faulted hw hf]
      rfl
    · rw [summaryStep_illegal hf hw, step_issueNext_illegal hw hf]
      rfl
  · rw [executeWord_decoded s (decode_encode i)]
    rcases Bool.eq_false_or_eq_true s.f with hf | hf
    · rw [summaryStep_faulted hf]
      by_cases hi : i = .rds
      · rw [if_pos ⟨(opField_encode_eq_rds_iff i).2 hi, wellFormedWord_encode i⟩, hi]
        rfl
      · rw [if_neg fun h => hi ((opField_encode_eq_rds_iff i).1 h.1), exec_faulted hf hi]
        rfl
    · rw [summaryStep_encode hf]
      by_cases hc : commandCause i s = .none
      · rw [exec_completed hf hc, if_pos hc]
        cases i <;> rfl
      · rw [exec_raised hf hc, if_neg hc]
        rfl

end Sys2Proof.Machine

/-! # Proofs: rotation and population count (00_scope.md R9, R10, 40_alu.md R83, R85, R86) -/

namespace Sys2Proof.Machine

/-! ## Rotation by its bits -/

/-- R9: bit `i` goes to bit `(i + s) mod 16`. -/
theorem rotl16_getLsbD (a : HalfWord) (s : Nibble) {i : Nat} (hi : i < 16) :
    (rotl16 a s).getLsbD ((i + s.toNat) % 16) = a.getLsbD i := by
  have hs : s.toNat < 16 := s.isLt
  rw [rotl16_eq_rotateLeft, BitVec.getLsbD_rotateLeft, Nat.mod_eq_of_lt hs]
  by_cases hlow : i + s.toNat < 16
  · have hkept : ¬ i + s.toNat < s.toNat := by omega
    rw [Nat.mod_eq_of_lt hlow, decide_eq_false hkept, cond_false, decide_eq_true hlow, Bool.true_and,
      Nat.add_sub_cancel]
  · have hmod : (i + s.toNat) % 16 = i + s.toNat - 16 := by omega
    have hwrapped : i + s.toNat - 16 < s.toNat := by omega
    rw [hmod, decide_eq_true hwrapped, cond_true]
    congr 1
    omega

/-- A HalfWord with those bits is the rotation. -/
theorem eq_rotl16 {a b : HalfWord} {s : Nibble}
    (h : ∀ i, i < 16 → b.getLsbD ((i + s.toNat) % 16) = a.getLsbD i) : b = rotl16 a s := by
  have hs : s.toNat < 16 := s.isLt
  apply halfWord_ext
  intro j hj
  have hi : (j + 16 - s.toNat) % 16 < 16 := Nat.mod_lt _ (by decide)
  have hj' : ((j + 16 - s.toNat) % 16 + s.toNat) % 16 = j := by omega
  rw [← hj', h _ hi, rotl16_getLsbD a s hi]

theorem rotl16_zero (a : HalfWord) : rotl16 a 0 = a :=
  if_pos rfl

/-- R85: rotations compose. -/
theorem rotl16_rotl16 (a : HalfWord) (s t : Nibble) :
    rotl16 (rotl16 a s) t = rotl16 a (BitVec.ofNat 4 ((s.toNat + t.toNat) % 16)) := by
  apply eq_rotl16
  intro i hi
  have hsum : (i + (BitVec.ofNat 4 ((s.toNat + t.toNat) % 16)).toNat) % 16
      = ((i + s.toNat) % 16 + t.toNat) % 16 := by
    rw [BitVec.toNat_ofNat]
    omega
  rw [hsum, rotl16_getLsbD _ t (Nat.mod_lt _ (by decide)), rotl16_getLsbD a s hi]

/-- The amount of R85 that undoes a rotation. -/
def undoAmount (s : Nibble) : Nibble := BitVec.ofNat 4 ((16 - s.toNat) % 16)

theorem rotl16_of_sum_zero (a : HalfWord) {s t : Nibble} (h : (s.toNat + t.toNat) % 16 = 0) :
    rotl16 (rotl16 a s) t = a := by
  rw [rotl16_rotl16, h]
  exact rotl16_zero a

theorem rotl16_undo (a : HalfWord) (s : Nibble) : rotl16 (rotl16 a s) (undoAmount s) = a := by
  have hs : s.toNat < 16 := s.isLt
  apply rotl16_of_sum_zero
  rw [undoAmount, BitVec.toNat_ofNat]
  omega

theorem undo_rotl16 (a : HalfWord) (s : Nibble) : rotl16 (rotl16 a (undoAmount s)) s = a := by
  have hs : s.toNat < 16 := s.isLt
  apply rotl16_of_sum_zero
  rw [undoAmount, BitVec.toNat_ofNat]
  omega

/-- R85: a rotation is undone on both sides. -/
theorem rotl16_eq_iff {a b : HalfWord} {s : Nibble} : rotl16 a s = b ↔ a = rotl16 b (undoAmount s) :=
  ⟨fun h => by rw [← h, rotl16_undo], fun h => by rw [h, undo_rotl16]⟩

theorem rotl16_bijective (s : Nibble) : Function.Bijective fun a => rotl16 a s :=
  Function.bijective_iff_has_inverse.2
    ⟨fun a => rotl16 a (undoAmount s), fun a => rotl16_undo a s, fun a => undo_rotl16 a s⟩

/-- R85: rotation works bit by bit, so it commutes with XOR. -/
theorem rotl16_xor16 (a b : HalfWord) (s : Nibble) :
    rotl16 (xor16 a b) s = xor16 (rotl16 a s) (rotl16 b s) := by
  symm
  apply eq_rotl16
  intro i hi
  rw [xor16, xor16, BitVec.getLsbD_xor, BitVec.getLsbD_xor, rotl16_getLsbD a s hi, rotl16_getLsbD b s hi]

/-- R9: the two terms of the formula together stay below `2^16`. -/
theorem rotl16_sum_lt (a : HalfWord) (s : Nibble) :
    a.toNat * 2 ^ s.toNat % 2 ^ 16 + a.toNat / 2 ^ (16 - s.toNat) < 2 ^ 16 := by
  have hs : s.toNat < 16 := s.isLt
  have ha : a.toNat < 2 ^ 16 := a.isLt
  have hsplit : (2 : Nat) ^ 16 = 2 ^ (16 - s.toNat) * 2 ^ s.toNat := by
    rw [← Nat.pow_add, Nat.sub_add_cancel hs.le]
  have hlow : a.toNat / 2 ^ (16 - s.toNat) < 2 ^ s.toNat := Nat.div_lt_of_lt_mul (hsplit ▸ ha)
  have hrest : a.toNat % 2 ^ (16 - s.toNat) + 1 ≤ 2 ^ (16 - s.toNat) := Nat.mod_lt _ (by positivity)
  calc a.toNat * 2 ^ s.toNat % 2 ^ 16 + a.toNat / 2 ^ (16 - s.toNat)
      < a.toNat % 2 ^ (16 - s.toNat) * 2 ^ s.toNat + 2 ^ s.toNat := by
        rw [hsplit, Nat.mul_mod_mul_right]
        exact Nat.add_lt_add_left hlow _
    _ = (a.toNat % 2 ^ (16 - s.toNat) + 1) * 2 ^ s.toNat := (Nat.succ_mul _ _).symm
    _ ≤ 2 ^ (16 - s.toNat) * 2 ^ s.toNat := Nat.mul_le_mul_right _ hrest
    _ = 2 ^ 16 := hsplit.symm

theorem rotl16_toNat (a : HalfWord) {s : Nibble} (hs : s ≠ 0) :
    (rotl16 a s).toNat = a.toNat * 2 ^ s.toNat % 65536 + a.toNat / 2 ^ (16 - s.toNat) := by
  rw [rotl16, if_neg hs, BitVec.toNat_ofNat]
  exact Nat.mod_eq_of_lt (rotl16_sum_lt a s)

/-- R6: only bit `j` is set. -/
theorem e16_getLsbD (j : Nibble) {i : Nat} (hi : i < 16) : (e16 j).getLsbD i = decide (j.toNat = i) := by
  rw [e16, BitVec.getLsbD_ofNat, Nat.testBit_two_pow, decide_eq_true hi, Bool.true_and]

/-- R85, with R9's direction: the one set bit moves upward. -/
theorem rotl16_e16 (j s : Nibble) : rotl16 (e16 j) s = e16 (BitVec.ofNat 4 ((j.toNat + s.toNat) % 16)) := by
  have hj : j.toNat < 16 := j.isLt
  symm
  apply eq_rotl16
  intro i hi
  rw [e16_getLsbD _ (Nat.mod_lt _ (by decide)), e16_getLsbD _ hi, BitVec.toNat_ofNat, decide_eq_decide]
  omega

/-! ## The population count by its positions -/

/-- R85: two values differ in as many positions as their XOR has bits. -/
theorem popcount16_xor16 (a b : HalfWord) :
    popcount16 (xor16 a b) = (Finset.univ.filter fun i : Fin 16 => a.getLsbD i.val ≠ b.getLsbD i.val).card := by
  rw [popcount16_eq_card]
  congr 1
  apply Finset.filter_congr
  intro i _
  rw [xor16, BitVec.getLsbD_xor]
  exact bne_iff_ne

theorem popcount16_xor16_eq_zero_iff (a b : HalfWord) : popcount16 (xor16 a b) = 0 ↔ a = b := by
  rw [popcount16_xor16, Finset.card_eq_zero, Finset.filter_eq_empty_iff]
  constructor
  · intro h
    exact halfWord_ext fun i hi => not_not.1 (h (Finset.mem_univ (⟨i, hi⟩ : Fin 16)))
  · rintro rfl i -
    exact not_not.2 rfl

/-- R85: rotation only moves the set positions, by `i ↦ (i + s) mod 16`. -/
theorem popcount16_rotl16 (a : HalfWord) (s : Nibble) : popcount16 (rotl16 a s) = popcount16 a := by
  rw [popcount16_eq_card, popcount16_eq_card]
  symm
  apply Finset.card_equiv (Equiv.addRight (⟨s.toNat, s.isLt⟩ : Fin 16))
  intro i
  have hbit := rotl16_getLsbD a s i.isLt
  simp only [Finset.mem_filter, Finset.mem_univ, true_and, Equiv.coe_addRight, Fin.val_add, hbit]

/-- R85: one set position, that of `e_j`. -/
theorem popcount16_eq_one_iff (a : HalfWord) : popcount16 a = 1 ↔ ∃ j : Nibble, a = e16 j := by
  rw [popcount16_eq_card, Finset.card_eq_one]
  constructor
  · rintro ⟨j, hj⟩
    refine ⟨BitVec.ofNat 4 j.val, halfWord_ext fun i hi => ?_⟩
    have hmem := Finset.ext_iff.1 hj ⟨i, hi⟩
    simp only [Finset.mem_filter, Finset.mem_univ, true_and, Finset.mem_singleton, Fin.ext_iff] at hmem
    rw [e16_getLsbD _ hi, BitVec.toNat_ofNat, Nat.mod_eq_of_lt j.isLt, Bool.eq_iff_iff, hmem, decide_eq_true_iff,
      eq_comm]
  · rintro ⟨j, rfl⟩
    refine ⟨⟨j.toNat, j.isLt⟩, Finset.ext fun i => ?_⟩
    simp only [Finset.mem_filter, Finset.mem_univ, true_and, Finset.mem_singleton, Fin.ext_iff,
      e16_getLsbD j i.isLt, decide_eq_true_iff]
    exact eq_comm

/-! ## The obligations -/

/-- Settles O12: the formula is R9's, and its bits are those of the library's rotation. -/
theorem rotateLeftMovesBits : Obligations.RotateLeftMovesBits := by
  exact ⟨rotl16_zero, fun a s hs => rotl16_toNat a hs, fun a s i hi => rotl16_getLsbD a s hi⟩

/-- Settles O13: each law is read off the bits of a rotation. -/
theorem rotationLaws : Obligations.RotationLaws :=
  ⟨rotl16_rotl16, rotl16_undo, rotl16_bijective, rotl16_xor16, rotl16_e16⟩

/-- Settles O14: each law is read off the set positions. -/
theorem popcountLaws : Obligations.PopcountLaws :=
  ⟨popcount16_le, popcount16_rotl16, popcount16_xor16, popcount16_xor16_eq_zero_iff, popcount16_eq_one_iff⟩

/-- R83: an amount up to 15 keeps its value as a Nibble. -/
theorem setWidth_four_toNat {n : HalfWord} (hn : n.toNat ≤ 15) : (n.setWidth 4).toNat = n.toNat := by
  rw [BitVec.toNat_setWidth]
  omega

/-- Settles O9: the two outcomes of ROL are its two equations; the rotated value is read bit by bit. -/
theorem rolRotatesOrFaults : Obligations.RolRotatesOrFaults := by
  refine ⟨decodesAs_of_decode fun _ => decode_rol, fun a n s hf hn => ⟨_, exec_rol_le hf a hn, ?_, ?_⟩,
    fun a n s hf hn => exec_rol_gt hf a hn, fun _ _ => refusedWhenFaulted_of_ne_rds nofun⟩
  · intro i hi
    rw [zext32_getLsbD_low _ (Nat.mod_lt _ (by decide)), ← setWidth_four_toNat hn, rotl16_getLsbD a _ hi]
  · exact fun i hi => zext32_getLsbD_high _ hi

/-! ## Subtraction (R86) -/

/-- R86: the difference is the sum with the two's complement. -/
theorem sub16_eq_add16 (a b : HalfWord) : sub16 a b = add16 a (add16 (xor16 b 0xFFFF) 0x0001) := by
  have hnot : xor16 b 0xFFFF = ~~~b := BitVec.xor_allOnes
  rw [sub16, add16, add16, hnot, BitVec.sub_eq_add_neg, BitVec.neg_eq_not_add]
  rfl

/-- R86: the carry out of bit 15 is lost, so `0x8000` is its own complement. -/
theorem xor16_top (a : HalfWord) : xor16 a 0x8000 = add16 a 0x8000 := by
  apply halfWord_ext
  intro i hi
  have hcarry : BitVec.carry i a 0x8000 false = false := by
    have hlow : (0x8000 : HalfWord).toNat % 2 ^ i = 0 :=
      Nat.mod_eq_zero_of_dvd (Nat.pow_dvd_pow 2 (Nat.le_of_lt_succ hi) : 2 ^ i ∣ 2 ^ 15)
    have hmod : a.toNat % 2 ^ i < 2 ^ i := Nat.mod_lt _ (by positivity)
    rw [BitVec.carry, hlow]
    simpa using hmod
  rw [xor16, add16, BitVec.getLsbD_xor, BitVec.getLsbD_add hi, hcarry, Bool.xor_false]

theorem sub16_top (a : HalfWord) : sub16 a 0x8000 = add16 a 0x8000 :=
  BitVec.sub_eq_add_neg _ _

/-- Settles O15: both identities are those of two's complement. -/
theorem subtractionByXorAndAdd : Obligations.SubtractionByXorAndAdd :=
  ⟨sub16_eq_add16, fun a => ⟨xor16_top a, (xor16_top a).trans (sub16_top a).symm⟩⟩

end Sys2Proof.Machine

/-! # Proofs: the round function and the encryption (42_cipher.md R100 to R107) -/

namespace Sys2Proof.Machine

/-! ## One round -/

theorem rf_left (i : Fin 10) (key : HalfWord) (b : Block) : (rf i key b).left = xor16 b.right b.left := rfl

theorem rf_right (i : Fin 10) (key : HalfWord) (b : Block) :
    (rf i key b).right = combine i (rotl16 b.left (lowNibble (xor16 b.right b.left))) key := rfl

/-- R102: the low four bits. -/
theorem lowNibble_toNat (v : HalfWord) : (lowNibble v).toNat = v.toNat % 16 := by
  simp [lowNibble]

theorem combine_xor {i : Fin 10} (hi : i.val ≤ 8) (v key : HalfWord) : combine i v key = xor16 v key :=
  if_pos hi

theorem combine_add {i : Fin 10} (hi : ¬ i.val ≤ 8) (v key : HalfWord) : combine i v key = add16 v key :=
  if_neg hi

/-- Settles O21: the new right half is the library's rotation of the old left half, combined with the key. -/
theorem roundFunctionFourSteps : Obligations.RoundFunctionFourSteps := by
  intro i key x y
  have hright : (rf i key ⟨x, y⟩).right = combine i (x.rotateLeft ((y ^^^ x).toNat % 16)) key := by
    rw [rf_right, rotl16_eq_rotateLeft, lowNibble_toNat]
    rfl
  refine ⟨rfl, fun hi => ?_, fun hi => ?_⟩
  · rw [hright, combine_xor hi]
    rfl
  · rw [hright, combine_add (by omega)]
    rfl

/-! ## The inverse of a round (R107) -/

/-- R107: the key undone. -/
def uncombine (i : Fin 10) (v key : HalfWord) : HalfWord := if i.val ≤ 8 then xor16 v key else sub16 v key

theorem xor16_eq_iff {a b c : HalfWord} : xor16 a b = c ↔ a = xor16 c b :=
  ⟨fun h => by rw [← h, xor16, xor16, BitVec.xor_assoc, BitVec.xor_self, BitVec.xor_zero],
    fun h => by rw [h, xor16, xor16, BitVec.xor_assoc, BitVec.xor_self, BitVec.xor_zero]⟩

theorem combine_eq_iff {i : Fin 10} {v key w : HalfWord} : combine i v key = w ↔ v = uncombine i w key := by
  by_cases hi : i.val ≤ 8
  · rw [combine_xor hi, uncombine, if_pos hi, xor16_eq_iff]
  · rw [combine_add hi, uncombine, if_neg hi]
    exact eq_sub_iff_add_eq.symm

/-- R107: the stated inverse on Blocks. -/
def roundInverse (i : Fin 10) (key : HalfWord) (c : Block) : Block :=
  let left := rotl16 (uncombine i c.right key) (undoAmount (lowNibble c.left))
  ⟨left, xor16 c.left left⟩

theorem block_eq_iff {b c : Block} : b = c ↔ b.left = c.left ∧ b.right = c.right :=
  ⟨fun h => h ▸ ⟨rfl, rfl⟩, fun ⟨hl, hr⟩ => congrArg₂ Block.mk hl hr⟩

/-- R107: XOR, the combination with the key and the rotation are undone one after the other. -/
theorem rf_eq_iff {i : Fin 10} {key : HalfWord} {b c : Block} : rf i key b = c ↔ b = roundInverse i key c := by
  rw [block_eq_iff, block_eq_iff, rf_left, rf_right, xor16_eq_iff]
  constructor
  · rintro ⟨hright, h⟩
    have hleft : xor16 b.right b.left = c.left := xor16_eq_iff.2 hright
    rw [hleft, combine_eq_iff, rotl16_eq_iff] at h
    exact ⟨h, by rw [hright, h]; rfl⟩
  · rintro ⟨hleft, hright⟩
    have hright : b.right = xor16 c.left b.left := by rw [hright, hleft]; rfl
    refine ⟨hright, ?_⟩
    rw [xor16_eq_iff.2 hright, combine_eq_iff, rotl16_eq_iff]
    exact hleft

/-- Settles O22: the stated halves are those of `roundInverse`. -/
theorem roundHasStatedInverse : Obligations.RoundHasStatedInverse := by
  intro i key b c
  rw [rf_eq_iff, block_eq_iff]
  refine and_congr_right fun hleft => ?_
  rw [hleft]
  rfl

theorem rf_bijective (i : Fin 10) (key : HalfWord) : Function.Bijective fun b => rf i key b :=
  (Function.bijective_iff_existsUnique _).2 fun c =>
    ⟨roundInverse i key c, rf_eq_iff.2 rfl, fun _ h => rf_eq_iff.1 h⟩

/-- R107: the first rounds, one bijection after the other. -/
theorem roundOutput_bijective (ks : KeySchedule) {n : Nat} (hn : n ≤ 10) :
    Function.Bijective fun p => roundOutput ks p n := by
  induction n with
  | zero => exact Function.bijective_id
  | succ n ih =>
    have hsucc : (fun p => roundOutput ks p (n + 1))
        = (fun b => rf ⟨n, hn⟩ ks[n] b) ∘ fun p => roundOutput ks p n :=
      funext fun p => roundOutput_succ ks p ⟨n, hn⟩
    rw [hsucc]
    exact (rf_bijective _ _).comp (ih (Nat.le_of_succ_le hn))

theorem ciphertext_eq (ks : KeySchedule) (p : Block) : ciphertext ks p = roundOutput ks p 10 :=
  trajectory_getElem ks p (by decide)

/-- Settles O23: one round has an inverse, and ten rounds are a composition. -/
theorem encryptionIsBijective : Obligations.EncryptionIsBijective := by
  refine ⟨rf_bijective, fun ks => ?_⟩
  simp only [ciphertext_eq]
  exact roundOutput_bijective ks le_rfl

/-- Settles O29: entry `n + 1` is one round after entry `n`, whose left half is the XOR of the halves. -/
theorem leftHalfIsXorOfHalves : Obligations.LeftHalfIsXorOfHalves := by
  intro ks p n
  rw [trajectory_succ, rf_left]
  exact BitVec.xor_comm _ _

/-! ## ENC and RDT on the machine (R48, R103, R105) -/

/-- R103: what a successful ENC leaves. -/
def afterEnc (p : Block) (s : State) : State :=
  { s with t := some (trajectory (schedule s) p), tv := true }.answer false (pack (trajectory (schedule s) p)[10])

theorem exec_enc_next {s : State} (hf : s.f = false) (hs : s.sealed = true) (l r : HalfWord) :
    exec (.enc l r) s = .next (afterEnc ⟨l, r⟩ s) :=
  exec_enc_sealed hf l r hs

/-- R105: the entry of the trajectory held. -/
theorem exec_rdt_entry {s : State} {tr : Trajectory} {n : Nibble} {j : Fin 11} (hf : s.f = false)
    (htv : s.tv = true) (ht : s.t = some tr) (hj : j.val = n.toNat) :
    exec (.rdt n) s = .next (s.answer false (pack tr[j])) := by
  rw [exec_rdt_good hf (hj ▸ Nat.le_of_lt_succ j.isLt) htv, ht, ← hj, memReadT_some]

/-- Settles O26: RDT reads the trajectory that ENC stored. -/
theorem rdtAfterEncReadsThatTrajectory : Obligations.RdtAfterEncReadsThatTrajectory :=
  fun l r s hf hs => ⟨afterEnc ⟨l, r⟩ s, trajectory (schedule s) ⟨l, r⟩, exec_enc_next hf hs l r, rfl,
    trajectory_zero _ _, rfl, fun _ _ hj => exec_rdt_entry (s := afterEnc ⟨l, r⟩ s) hf rfl rfl hj⟩

/-- Settles O27: ENC changes neither `F`, SEALED nor the keys, so the second one computes the same trajectory. -/
theorem encIsIdempotent : Obligations.EncIsIdempotent :=
  fun l r s hf hs => ⟨afterEnc ⟨l, r⟩ s, _, exec_enc_next hf hs l r, rfl,
    exec_enc_next (s := afterEnc ⟨l, r⟩ s) hf hs l r⟩

/-! ## One round in ALU commands (R106) -/

theorem low_bits_toNat (v : HalfWord) : (v &&& 0x000F).toNat = v.toNat % 16 := by
  rw [BitVec.toNat_and]
  exact Nat.and_two_pow_sub_one_eq_mod v.toNat 4

theorem low_bits_le (v : HalfWord) : (v &&& 0x000F).toNat ≤ 15 := by
  rw [low_bits_toNat]
  omega

/-- R102: masked to four bits, the amount of ROL is the one inside a round. -/
theorem setWidth_low_bits (v : HalfWord) : (v &&& 0x000F).setWidth 4 = lowNibble v := by
  apply BitVec.eq_of_toNat_eq
  rw [setWidth_four_toNat (low_bits_le v), low_bits_toNat, lowNibble_toNat]

/-- R101: the last of the three commands combines with the key. -/
theorem exec_combine {s : State} (hf : s.f = false) (i : Fin 10) (v key : HalfWord) :
    exec (if i.val ≤ 8 then .xor v key else .add v key) s
      = .next (s.answer false (zext32 (combine i v key))) := by
  by_cases hi : i.val ≤ 8
  · rw [if_pos hi, exec_xor hf, combine_xor hi]
  · rw [if_neg hi, exec_add hf, combine_add hi]

/-- Settles O30: the three results are the parts of R100, in order. -/
theorem roundRebuiltByAluCommands : Obligations.RoundRebuiltByAluCommands := by
  intro i key x y s hf
  let y1 := xor16 y x
  let t1 := s.answer false (zext32 y1)
  let t2 := t1.answer false (zext32 (rotl16 x (lowNibble y1)))
  have hrol : exec (.rol x (y1 &&& 0x000F)) t1 = .next t2 := by
    rw [exec_rol_le (s := t1) hf x (low_bits_le y1), setWidth_low_bits]
  exact ⟨y1, _, _, t1, t2, exec_xor hf y x, rfl, hrol, rfl, exec_combine (s := t2) hf i _ key, rfl⟩

end Sys2Proof.Machine

/-! # Proofs: the status word (10_state.md R28) -/

namespace Sys2Proof.Machine

/-- The fields that `STATUS` shows fit in their bits. -/
theorem statusFields_bounds (s : State) : s.sealed.toNat ≤ 1 ∧ s.tv.toNat ≤ 1 ∧ s.f.toNat ≤ 1 ∧ s.kn.val ≤ 10 ∧
    (causeCode s.cause).toNat < 16 :=
  ⟨Bool.toNat_le _, Bool.toNat_le _, Bool.toNat_le _, Nat.le_of_lt_succ s.kn.isLt, (causeCode s.cause).isLt⟩

/-- A bit of a word by its binary digit. -/
theorem getLsbD_of_digit {v : Word} {j : Nat} {b : Bool} (h : v.toNat / 2 ^ j % 2 = b.toNat) : v.getLsbD j = b := by
  rw [BitVec.getLsbD, Nat.testBit_eq_decide_div_mod_eq, h]
  cases b <;> rfl

/-- Settles O31: each field is read off the sum of R28, in which no two fields overlap. -/
theorem statusFieldsInPlace : Obligations.StatusFieldsInPlace := by
  intro s
  obtain ⟨hsealed, htv, hf, hkn, hcause⟩ := statusFields_bounds s
  have hsum := statusWord_toNat s
  refine ⟨getLsbD_of_digit ?_, getLsbD_of_digit ?_, statusWord_getLsbD_two s, getLsbD_of_digit (b := false) ?_, hsum,
    ?_, statusWord_extractLsb'_cause s, BitVec.eq_of_toNat_eq ?_⟩
  · omega
  · omega
  · rw [Bool.toNat_false]
    omega
  · rw [BitVec.extractLsb'_toNat, Nat.shiftRight_eq_div_pow]
    omega
  · rw [BitVec.extractLsb'_toNat, Nat.shiftRight_eq_div_pow]
    change _ = 0
    omega

end Sys2Proof.Machine

/-! # Proofs: right pairs and the ranking (45_host_reference.md R138 to R142) -/

namespace Sys2Proof.Machine

/-! ## The last round of a pair (R140, R141) -/

theorem ciphertext_left (ks : KeySchedule) (p : Block) :
    (ciphertext ks p).left = xor16 (trajectory ks p)[9].right (trajectory ks p)[9].left :=
  congrArg Block.left (trajectory_succ ks p 9)

/-- R101: the last round adds its key, so subtracting it leaves the rotated half. -/
theorem sub16_ciphertext_right (ks : KeySchedule) (p : Block) :
    sub16 (ciphertext ks p).right ks[9] = rotl16 (trajectory ks p)[9].left (lowNibble (ciphertext ks p).left) := by
  have hright : (ciphertext ks p).right = (rf 9 ks[9] (trajectory ks p)[9]).right :=
    congrArg Block.right (trajectory_succ ks p 9)
  rw [hright, rf_right, combine_add (by decide), ciphertext_left]
  exact BitVec.add_sub_cancel _ _

/-- Where the halves differ alike, the XOR of the halves is the same. -/
theorem xor16_halves_eq {a b c d : HalfWord} (h : xor16 a c = xor16 b d) : xor16 b a = xor16 d c := by
  rw [xor16_eq_iff.1 h, xor16, xor16, xor16, xor16, ← BitVec.xor_assoc, ← BitVec.xor_assoc, BitVec.xor_self,
    BitVec.zero_xor]

/-- R140: equal halves of `D9` give equal left halves of the ciphertexts. -/
theorem ciphertext_left_eq {ks : KeySchedule} {p q : Block}
    (h : (bxor (trajectory ks p)[9] (trajectory ks q)[9]).left
      = (bxor (trajectory ks p)[9] (trajectory ks q)[9]).right) :
    (ciphertext ks p).left = (ciphertext ks q).left := by
  rw [ciphertext_left, ciphertext_left]
  exact xor16_halves_eq h

/-- R135, as a proposition. -/
theorem isRightPair_iff (tp : TrajectoryPair) :
    isRightPair tp = true ↔
      (bxor tp.1[9] tp.2[9]).left = (bxor tp.1[9] tp.2[9]).right ∧ popcount16 (bxor tp.1[9] tp.2[9]).left = 1 := by
  simp [isRightPair, rightDifference]

/-- V1's key schedule, under which V33 is sampled. -/
def vectorKeys : KeySchedule :=
  #v[0x1234, 0x5678, 0x9ABC, 0xDEF0, 0x1111, 0x2222, 0x3333, 0x4444, 0x5555, 0x6666]

/-- V33: a sampled pair that passes the filter and is not a right pair. -/
theorem v33_passes_not_right :
    passesFilter (encryptPair vectorKeys ⟨0x0000, 0x4050⟩) = true ∧
      isRightPair (encryptPair vectorKeys ⟨0x0000, 0x4050⟩) = false := by
  decide

/-- Settles O52: by the last round, and for the last clause by V33. -/
theorem filterKeepsEveryRightPair : Obligations.FilterKeepsEveryRightPair := by
  refine ⟨fun _ _ _ => ciphertext_left_eq, fun ks p q h => ?_, vectorKeys, _, v33_passes_not_right⟩
  obtain ⟨hhalves, -⟩ := (isRightPair_iff _).1 h
  exact beq_iff_eq.2 (ciphertext_left_eq hhalves)

/-- Settles O53: with the last key undone both halves are rotated by the same amount, so their difference has the
weight of `D9`. -/
theorem rightPairMetricIsOne : Obligations.RightPairMetricIsOne := by
  intro ks p q h
  obtain ⟨hhalves, hweight⟩ := (isRightPair_iff _).1 h
  change popcount16 (xor16 (sub16 (ciphertext ks p).right ks[9]) (sub16 (ciphertext ks q).right ks[9])) = 1
  rw [sub16_ciphertext_right, sub16_ciphertext_right, ciphertext_left_eq hhalves, ← rotl16_xor16, popcount16_rotl16]
  exact hweight

/-! ## Bit 15 of the key (R142) -/

/-- R86, R142: flipping bit 15 of the key flips bit 15 of the difference. -/
theorem sub16_xor16_top (n key : HalfWord) : sub16 n (xor16 key 0x8000) = xor16 (sub16 n key) 0x8000 := by
  rw [xor16_top, xor16_top (sub16 n key), ← sub16_top (sub16 n key)]
  exact sub_add_eq_sub_sub n key 0x8000

/-- The same flip on both sides of an XOR cancels. -/
theorem xor16_flip_both (a b c : HalfWord) : xor16 (xor16 a c) (xor16 b c) = xor16 a b := by
  rw [xor16_eq_iff, xor16, xor16, xor16, xor16, BitVec.xor_assoc, ← BitVec.xor_assoc b b c, BitVec.xor_self,
    BitVec.zero_xor]

theorem metric_top (n0 n1 key : HalfWord) : metric n0 n1 (xor16 key 0x8000) = metric n0 n1 key := by
  rw [metric, sub16_xor16_top, sub16_xor16_top, xor16_flip_both, metric]

theorem keyWeight_top (pool : List TrajectoryPair) (key : HalfWord) :
    keyWeight pool (xor16 key 0x8000) = keyWeight pool key := by
  simp only [keyWeight, metric_top]

/-- XOR with a value other than 0 changes a HalfWord. -/
theorem xor16_ne_self (a : HalfWord) {c : HalfWord} (hc : c ≠ 0) : xor16 a c ≠ a := by
  intro h
  have hself : xor16 a a = 0 := BitVec.xor_self
  exact hc ((xor16_eq_iff.1 ((BitVec.xor_comm c a).trans h)).trans hself)

/-- Flipping bit 15 where it is set takes `0x8000` away. -/
theorem xor16_top_lt {key : HalfWord} (h : 0x8000 ≤ key.toNat) : (xor16 key 0x8000).toNat < key.toNat := by
  have hkey := key.isLt
  rw [xor16_top, add16, BitVec.toNat_add]
  change (key.toNat + 0x8000) % 2 ^ 16 < key.toNat
  omega

/-- R142: the least of the keys of minimum weight has bit 15 clear. -/
theorem recoveredKey_lt (pool : List TrajectoryPair) : (recoveredKey pool).toNat < 0x8000 := by
  obtain ⟨hleast, hfirst⟩ := recoveredKeyIsLeastMinimum pool
  by_contra h
  have hlt := xor16_top_lt (Nat.not_lt.1 h)
  refine absurd (hfirst (xor16 (recoveredKey pool) 0x8000) fun j => ?_) (Nat.not_le.2 hlt)
  rw [keyWeight_top]
  exact hleast j

/-- Settles O54: a flip of bit 15 of the key cancels in the metric. -/
theorem topKeyBitIsInvisible : Obligations.TopKeyBitIsInvisible := by
  refine ⟨metric_top, keyWeight_top, fun pool key hleast => ⟨xor16_ne_self key (by decide), fun j => ?_⟩,
    recoveredKey_lt⟩
  rw [keyWeight_top]
  exact hleast j

/-! ## The report (R138) -/

/-- R139: two keys succeed alike exactly when their low 15 bits agree. -/
theorem trialSucceeds_eq_false_iff (a b : HalfWord) :
    trialSucceeds a b = false ↔ a.extractLsb' 0 15 ≠ b.extractLsb' 0 15 := by
  rw [trialSucceeds]
  exact beq_eq_false_iff_ne

/-- R138: the choice among the admitted keys, with its gap above the weight of `best`. -/
theorem runnerUp_spec {admits : HalfWord → Bool} (weight : HalfWord → Nat) (best : HalfWord) {key : HalfWord}
    (hkey : admits key = true) :
    ∃ key', runnerUp admits weight best = some (key', weight key' - weight best) ∧ admits key' = true ∧
      (∀ j, admits j = true → weight key' ≤ weight j) ∧
      ∀ j, admits j = true → j.toNat < key'.toNat → weight key' < weight j := by
  obtain ⟨key', hchoice, hadmits, hleast, hfirst⟩ := leastBestWhere_all weight hkey
  exact ⟨key', by rw [runnerUp, hchoice]; rfl, hadmits, hleast, hfirst⟩

/-- R142: the key with bit 15 flipped ties with the recovered one, so the second-best key has gap 0. -/
theorem secondBest_spec (pool : List TrajectoryPair) :
    ∃ key, (recoveryReport pool).secondBest = some (key, 0) ∧ key ≠ recoveredKey pool ∧
      keyWeight pool key = keyWeight pool (recoveredKey pool) := by
  have hother : (xor16 (recoveredKey pool) 0x8000 != recoveredKey pool) = true :=
    bne_iff_ne.2 (xor16_ne_self _ (by decide))
  obtain ⟨key, hsecond, hadmits, hleast, -⟩ :=
    runnerUp_spec (admits := fun key => key != recoveredKey pool) (keyWeight pool) (recoveredKey pool) hother
  have hle : keyWeight pool key ≤ keyWeight pool (recoveredKey pool) :=
    (hleast _ hother).trans_eq (keyWeight_top pool (recoveredKey pool))
  have heq := le_antisymm hle ((recoveredKeyIsLeastMinimum pool).1 key)
  rw [heq, Nat.sub_self] at hsecond
  exact ⟨key, hsecond, bne_iff_ne.1 hadmits, heq⟩

/-- Flipping bit 0 of a key changes its low 15 bits. -/
theorem low_bits_flip_ne (key : HalfWord) : (xor16 key 1).extractLsb' 0 15 ≠ key.extractLsb' 0 15 := by
  intro h
  have hbit := congrArg (BitVec.getLsbD · 0) h
  simp [xor16] at hbit

/-- R138: some key differs in the low 15 bits, and the rival is the best of these. -/
theorem rival_spec (pool : List TrajectoryPair) :
    ∃ key gap, (recoveryReport pool).rival = some (key, gap) ∧
      key.extractLsb' 0 15 ≠ (recoveredKey pool).extractLsb' 0 15 ∧
      keyWeight pool key = keyWeight pool (recoveredKey pool) + gap ∧
      ∀ j : HalfWord, j.extractLsb' 0 15 ≠ (recoveredKey pool).extractLsb' 0 15 →
        keyWeight pool key ≤ keyWeight pool j := by
  have hadmits_iff : ∀ key, (!trialSucceeds key (recoveredKey pool)) = true ↔
      key.extractLsb' 0 15 ≠ (recoveredKey pool).extractLsb' 0 15 := fun key => by
    rw [Bool.not_eq_true', trialSucceeds_eq_false_iff]
  obtain ⟨key, hrival, hadmits, hleast, -⟩ :=
    runnerUp_spec (admits := fun key => !trialSucceeds key (recoveredKey pool)) (keyWeight pool) (recoveredKey pool)
      ((hadmits_iff _).2 (low_bits_flip_ne (recoveredKey pool)))
  refine ⟨key, _, hrival, (hadmits_iff key).1 hadmits, ?_, fun j hj => hleast j ((hadmits_iff j).2 hj)⟩
  exact (Nat.add_sub_cancel' ((recoveredKeyIsLeastMinimum pool).1 key)).symm

theorem keyWeight_empty (key : HalfWord) : keyWeight [] key = 0 := by
  rw [keyWeight, List.map_nil, List.sum_nil]

/-- With every weight 0 the runner-up of the key 0 is the least other key admitted. -/
theorem runnerUp_empty {admits : HalfWord → Bool} (hzero : admits 0 = false) (hone : admits 1 = true) :
    runnerUp admits (keyWeight []) 0 = some (1, 0) := by
  obtain ⟨key, hrunner, hadmits, -, hfirst⟩ := runnerUp_spec (keyWeight []) 0 hone
  have hone_le : key.toNat ≤ 1 := Nat.not_lt.1 fun hlt => Nat.lt_irrefl 0 (hfirst 1 hone hlt)
  have hne : key ≠ 0 := by
    rintro rfl
    exact absurd (hzero.symm.trans hadmits) nofun
  obtain rfl : key = 1 := by
    bv_omega
  exact hrunner

theorem recoveredKey_empty : recoveredKey [] = 0 := by
  have hle : (recoveredKey []).toNat ≤ (0 : HalfWord).toNat :=
    (recoveredKeyIsLeastMinimum []).2 0 fun j => by rw [keyWeight_empty, keyWeight_empty]
  exact BitVec.eq_of_toNat_eq (Nat.le_zero.1 hle)

/-- Settles O56: the recovered key and the counts are read off the report, the two runners-up are the lemmas above; for
the empty pool all weights are 0. -/
theorem reportSurfacesConfidence : Obligations.ReportSurfacesConfidence := by
  have hreport : recoveryReport [] = reportOf 0 (some 0) (keyWeight []) := rfl
  have hbest : leastBest (keyWeight []) lastKey = 0 := recoveredKey_empty
  refine ⟨fun pool => ⟨rfl, rfl, rfl, secondBest_spec pool, rival_spec pool⟩, recoveredKey_empty, rfl, ?_, ?_⟩
  · rw [hreport, reportOf, hbest]
    exact runnerUp_empty rfl rfl
  · rw [hreport, reportOf, hbest]
    exact runnerUp_empty rfl rfl

end Sys2Proof.Machine

/-! # Proofs: lines of the host and pseudo-instructions (30_encoding.md R70) -/

namespace Sys2Proof.Machine

/-! ## One line, one command -/

theorem mapM_one {env : AsmEnv} {a : AsmOperand} {v : HalfWord} (ha : operandValue env a = some v) :
    [a].mapM (operandValue env) = some [v] := by
  simp [ha]

theorem mapM_two {env : AsmEnv} {a b : AsmOperand} {v w : HalfWord} (ha : operandValue env a = some v)
    (hb : operandValue env b = some w) : [a, b].mapM (operandValue env) = some [v, w] := by
  simp [ha, hb]

/-- A bound line whose command completes binds its name to the response. -/
theorem runLine_completed {n : AsmName} {op : AsmOp} {os : List AsmOperand} {vs : List HalfWord} {i : Instr}
    {env : AsmEnv} {s u : State} {y : Word} (hv : os.mapM (operandValue env) = some vs)
    (ha : assemble op vs = some (.issue (encode i))) (he : exec i s = .next (u.answer false y))
    (hu : u.responses = s.responses) :
    runLine ⟨some n, op, os⟩ (env, s) = some ((n, ⟨false, y⟩) :: env, u.answer false y) :=
  runLine_bound hv ha ((perform_encode i s).trans he) (by rw [answer_responses, hu])

theorem runLine_xor {env : AsmEnv} {s : State} (hf : s.f = false) (n : AsmName) {a b : AsmOperand}
    {v w : HalfWord} (ha : operandValue env a = some v) (hb : operandValue env b = some w) :
    runLine ⟨some n, .xor, [a, b]⟩ (env, s)
      = some ((n, ⟨false, zext32 (xor16 v w)⟩) :: env, s.answer false (zext32 (xor16 v w))) :=
  runLine_completed (mapM_two ha hb) rfl (exec_xor hf v w) rfl

theorem runLine_add {env : AsmEnv} {s : State} (hf : s.f = false) (n : AsmName) {a b : AsmOperand}
    {v w : HalfWord} (ha : operandValue env a = some v) (hb : operandValue env b = some w) :
    runLine ⟨some n, .add, [a, b]⟩ (env, s)
      = some ((n, ⟨false, zext32 (add16 v w)⟩) :: env, s.answer false (zext32 (add16 v w))) :=
  runLine_completed (mapM_two ha hb) rfl (exec_add hf v w) rfl

theorem runLine_popc {env : AsmEnv} {s : State} (hf : s.f = false) (n : AsmName) {a : AsmOperand}
    {v : HalfWord} (ha : operandValue env a = some v) :
    runLine ⟨some n, .popc, [a]⟩ (env, s)
      = some ((n, ⟨false, zext32 (countHalf v)⟩) :: env, s.answer false (zext32 (countHalf v))) :=
  runLine_completed (mapM_one ha) rfl (exec_popc hf v) rfl

/-- The name bound last stands for its HalfWord. -/
theorem operandValue_low_zext32 (n : AsmName) (v : HalfWord) (env : AsmEnv) :
    operandValue ((n, ⟨false, zext32 v⟩) :: env) (.low n) = some v := by
  rw [operandValue_low_same, unpack_zext32_right]

/-! ## The pseudo-instructions -/

/-- R70: the lines of `%n = SUB a, b`. -/
def subLines (m : Nat) (n : AsmName) (a b : HalfWord) : List AsmLine :=
  [⟨some (.temp m), .xor, [.lit b, .lit 0xFFFF]⟩,
   ⟨some (.temp (m + 1)), .add, [.low (.temp m), .lit 1]⟩,
   ⟨some n, .add, [.lit a, .low (.temp (m + 1))]⟩]

theorem expandPseudo_sub (m : Nat) (n : AsmName) (a b : HalfWord) :
    expandPseudo m (some n) .sub [.lit a, .lit b] = some (subLines m n a b) := rfl

/-- The names after `%n = SUB a, b`: the result, and the two temporaries under it. -/
def subEnv (m : Nat) (n : AsmName) (a b : HalfWord) (env : AsmEnv) : AsmEnv :=
  (n, ⟨false, zext32 (sub16 a b)⟩) :: (.temp (m + 1), ⟨false, zext32 (add16 (xor16 b 0xFFFF) 1)⟩) ::
    (.temp m, ⟨false, zext32 (xor16 b 0xFFFF)⟩) :: env

/-- R86: SUB computes the difference and changes no element. -/
theorem runLines_sub {s : State} (hf : s.f = false) (m : Nat) (n : AsmName) (a b : HalfWord) (env : AsmEnv) :
    ∃ t, runLines (subLines m n a b) (env, s) = some (subEnv m n a b env, t) ∧ sameElements s t := by
  let t1 := s.answer false (zext32 (xor16 b 0xFFFF))
  let t2 := t1.answer false (zext32 (add16 (xor16 b 0xFFFF) 1))
  have hlast := runLine_add (s := t2) hf n (operandValue_lit _ a)
    (operandValue_low_zext32 (.temp (m + 1)) (add16 (xor16 b 0xFFFF) 1)
      ((.temp m, ⟨false, zext32 (xor16 b 0xFFFF)⟩) :: env))
  refine ⟨t2.answer false (zext32 (sub16 a b)), ?_, rfl, rfl, rfl, rfl, rfl, rfl, rfl⟩
  rw [subLines, runLines_cons, runLine_xor hf _ (operandValue_lit _ _) (operandValue_lit _ _), Option.bind_some,
    runLines_cons, runLine_add (s := t1) hf _ (operandValue_low_zext32 _ _ _) (operandValue_lit _ _),
    Option.bind_some, runLines_cons, hlast, Option.bind_some, runLines_nil, ← sub16_eq_add16]
  rfl

/-- R86: 0 minus a value is its complement plus 1. -/
theorem sub16_zero_left (a : HalfWord) : sub16 0 a = add16 (xor16 a 0xFFFF) 1 := by
  rw [sub16_eq_add16]
  exact BitVec.zero_add _

/-- R70: NOT is an XOR with all ones. -/
theorem runLines_not {s : State} (hf : s.f = false) (n : AsmName) (a : HalfWord) (env : AsmEnv) :
    runLines [⟨some n, .xor, [.lit a, .lit 0xFFFF]⟩] (env, s) =
      some ((n, ⟨false, zext32 (xor16 a 0xFFFF)⟩) :: env, s.answer false (zext32 (xor16 a 0xFFFF))) := by
  rw [runLines_cons, runLine_xor hf n (operandValue_lit _ _) (operandValue_lit _ _), Option.bind_some, runLines_nil]

/-- R70: NEG adds 1 to the complement. -/
theorem runLines_neg {s : State} (hf : s.f = false) (m : Nat) (n : AsmName) (a : HalfWord) (env : AsmEnv) :
    runLines [⟨some (.temp m), .xor, [.lit a, .lit 0xFFFF]⟩, ⟨some n, .add, [.low (.temp m), .lit 1]⟩] (env, s) =
      some ((n, ⟨false, zext32 (sub16 0 a)⟩) :: (.temp m, ⟨false, zext32 (xor16 a 0xFFFF)⟩) :: env,
        (s.answer false (zext32 (xor16 a 0xFFFF))).answer false (zext32 (sub16 0 a))) := by
  have hadd := runLine_add (s := s.answer false (zext32 (xor16 a 0xFFFF))) hf n
    (operandValue_low_zext32 (.temp m) (xor16 a 0xFFFF) env) (operandValue_lit _ 1)
  rw [← sub16_zero_left] at hadd
  rw [runLines_cons, runLine_xor hf _ (operandValue_lit _ _) (operandValue_lit _ _), Option.bind_some,
    runLines_cons, hadd, Option.bind_some, runLines_nil]

/-- A line without a name, for a command that completes. -/
theorem runLine_unbound_command {op : AsmOp} {os : List AsmOperand} {vs : List HalfWord} {i : Instr}
    {env : AsmEnv} {s t : State} (hv : os.mapM (operandValue env) = some vs)
    (ha : assemble op vs = some (.issue (encode i))) (he : exec i s = .next t) :
    runLine ⟨none, op, os⟩ (env, s) = some (env, t) :=
  runLine_unbound hv ha ((perform_encode i s).trans he)

/-- R70: BXOR is an XOR of the left halves, then one of the right halves. -/
theorem runLines_bxor {s : State} (hf : s.f = false) (b c : Block) (env : AsmEnv) :
    runLines [⟨none, .xor, [.lit b.left, .lit c.left]⟩, ⟨none, .xor, [.lit b.right, .lit c.right]⟩] (env, s) =
      some (env, (s.answer false (zext32 (bxor b c).left)).answer false (zext32 (bxor b c).right)) := by
  rw [runLines_cons, runLine_unbound_command (mapM_two (operandValue_lit _ _) (operandValue_lit _ _)) rfl
      (exec_xor hf b.left c.left), Option.bind_some,
    runLines_cons, runLine_unbound_command (mapM_two (operandValue_lit _ _) (operandValue_lit _ _)) rfl
      (exec_xor (s := s.answer false _) hf b.right c.right), Option.bind_some, runLines_nil]
  rfl

/-- Settles O50: each expansion is run line by line; a name used is the one bound last. -/
theorem pseudoInstructionsCompute : Obligations.PseudoInstructionsCompute := by
  intro a b m n env s hf
  obtain ⟨t, hsub, -⟩ := runLines_sub hf m n a b env
  refine ⟨⟨_, runLines_not hf n a env, operandValue_low_zext32 n _ env⟩,
    ⟨_, runLines_neg hf m n a env, operandValue_low_zext32 n _ _⟩,
    ⟨_, hsub, operandValue_low_zext32 n _ _⟩,
    fun c d => ⟨_, runLines_bxor hf ⟨a, b⟩ ⟨c, d⟩ env, ?_⟩⟩
  simp [State.answer]

/-! ## KLOAD (R70, R173) -/

/-- R70: the lines of KPUSH for a list of keys. -/
def kpushLines (keys : List HalfWord) : List AsmLine := keys.map fun v => ⟨none, .kpush, [.lit v]⟩

/-- R70: the lines of KLOAD. -/
def kloadLines (ks : KeySchedule) : List AsmLine := kpushLines ks.toList ++ [⟨none, .kseal, []⟩]

theorem expandPseudo_kload (m : Nat) (ks : KeySchedule) :
    expandPseudo m none .kload (ks.toList.map .lit) = some (kloadLines ks) := by
  have hlength : (none : Option AsmName).isNone ∧ (ks.toList.map AsmOperand.lit).length = 10 := by simp
  rw [expandPseudo, if_pos hlength, List.map_map]
  rfl

/-- What a sequence of KPUSH leaves: the keys stand behind those held before, and nothing but `K`, KN and the
responses has changed. -/
structure Pushed (keys : List HalfWord) (s t : State) : Prop where
  running : t.f = false
  unsealed : t.sealed = false
  count   : t.kn.val = s.kn.val + keys.length
  t_same  : t.t = s.t
  tv_same : t.tv = s.tv
  before  : ∀ i : Fin 10, i.val < s.kn.val → t.k[i] = s.k[i]
  pushed  : ∀ i : Fin 10, s.kn.val ≤ i.val → i.val < s.kn.val + keys.length → t.k[i] = keys[i.val - s.kn.val]?

theorem pushed_nil {s : State} (hf : s.f = false) (hs : s.sealed = false) : Pushed [] s s :=
  ⟨hf, hs, rfl, rfl, rfl, fun _ _ => rfl, fun _ hle hlt => absurd hlt (Nat.not_lt.2 hle)⟩

/-- R90: what one KPUSH leaves. -/
def afterKpush (v : HalfWord) (s : State) : State :=
  { s with k := memWriteK s.k s.kn.val v, kn := s.kn + 1 }.answer false 0

theorem afterKpush_k (v : HalfWord) (s : State) (i : Fin 10) :
    (afterKpush v s).k[i] = if i.val = s.kn.val then some v else s.k[i] :=
  memWriteK_getElem s.k s.kn.val v i

theorem afterKpush_kn {s : State} (hk : s.kn ≠ 10) (v : HalfWord) : (afterKpush v s).kn.val = s.kn.val + 1 :=
  kn_add_one_val hk

/-- One KPUSH before a sequence of them. -/
theorem pushed_cons {v : HalfWord} {keys : List HalfWord} {s t : State} (hk : s.kn ≠ 10)
    (h : Pushed keys (afterKpush v s) t) : Pushed (v :: keys) s t := by
  have hkn := afterKpush_kn hk v
  refine ⟨h.running, h.unsealed, ?_, h.t_same, h.tv_same, fun i hi => ?_, fun i hle hlt => ?_⟩
  · rw [h.count, hkn, List.length_cons]
    omega
  · rw [h.before i (by omega), afterKpush_k, if_neg (by omega)]
  · rcases Nat.eq_or_lt_of_le hle with heq | hgt
    · rw [h.before i (by omega), afterKpush_k, if_pos heq.symm, heq, Nat.sub_self]
      rfl
    · rw [List.length_cons] at hlt
      have hsucc : i.val - s.kn.val = (i.val - (s.kn.val + 1)) + 1 := by omega
      rw [h.pushed i (by omega) (by omega), hkn, hsucc, List.getElem?_cons_succ]

theorem runLines_kpush (keys : List HalfWord) {s : State} (env : AsmEnv) (hf : s.f = false) (hs : s.sealed = false)
    (hroom : s.kn.val + keys.length ≤ 10) :
    ∃ t, runLines (kpushLines keys) (env, s) = some (env, t) ∧ Pushed keys s t := by
  induction keys generalizing s with
  | nil => exact ⟨s, runLines_nil _, pushed_nil hf hs⟩
  | cons v keys ih =>
    rw [List.length_cons] at hroom
    have hk : s.kn ≠ 10 := by
      intro h
      rw [h] at hroom
      exact absurd hroom (by change ¬ 10 + _ ≤ 10; omega)
    have hkn := afterKpush_kn hk v
    obtain ⟨t, hrun, hpushed⟩ := ih (s := afterKpush v s) hf hs (by omega)
    refine ⟨t, ?_, pushed_cons hk hpushed⟩
    rw [kpushLines, List.map_cons, runLines_cons, runLine_unbound_command (mapM_one (operandValue_lit _ _)) rfl
      (exec_kpush_room hf v hs hk)]
    exact hrun

/-- R173: KLOAD on an open, empty schedule. -/
theorem runLines_kload (ks : KeySchedule) {s : State} (env : AsmEnv) (hf : s.f = false) (hs : s.sealed = false)
    (hk : s.kn = 0) : ∃ t, runLines (kloadLines ks) (env, s) = some (env, t) ∧
      t.kn = 10 ∧ t.sealed = true ∧ (∀ i : Fin 10, t.k[i] = some ks[i]) ∧ t.f = false ∧ t.t = s.t ∧ t.tv = s.tv := by
  have hlength : ks.toList.length = 10 := Vector.length_toList
  have hkn : s.kn.val = 0 := by rw [hk]; rfl
  obtain ⟨t, hrun, hpushed⟩ := runLines_kpush ks.toList env hf hs (by omega)
  have hfull : t.kn = 10 := Fin.ext (by rw [hpushed.count, hkn, hlength]; rfl)
  refine ⟨{ t with sealed := true }.answer false 0, ?_, hfull, rfl, fun i => ?_, hpushed.running, hpushed.t_same,
    hpushed.tv_same⟩
  · rw [kloadLines, runLines_append, hrun, Option.bind_some, runLines_cons,
      runLine_unbound_command rfl rfl (exec_kseal_full hpushed.running hpushed.unsealed hfull), Option.bind_some,
      runLines_nil]
  · refine (hpushed.pushed i (by omega) (by omega)).trans ?_
    simp [hkn]

/-- Settles O51: ten KPUSH fill the entries in order, and KSEAL seals them. -/
theorem kloadLoadsAndSeals : Obligations.KloadLoadsAndSeals := by
  intro ks m env s hf hs hk
  rw [expandPseudo_kload]
  exact runLines_kload ks env hf hs hk

end Sys2Proof.Machine

/-! # Proofs: one trial in commands (45_host_reference.md R143) -/

namespace Sys2Proof.Machine

/-- The block is sealed with the key schedule `ks` and not faulted. -/
structure Ready (ks : KeySchedule) (s : State) : Prop where
  running : s.f = false
  closed  : s.sealed = true
  keys    : schedule s = ks

theorem Ready.of_sameElements {ks : KeySchedule} {s t : State} (h : Ready ks s) (hst : sameElements s t) :
    Ready ks t := by
  obtain ⟨hk, -, hsealed, -, -, hf, -⟩ := hst
  refine ⟨hf.trans h.running, hsealed.trans h.closed, ?_⟩
  rw [← h.keys, schedule, hk, schedule]

theorem sameElements_refl (s : State) : sameElements s s := ⟨rfl, rfl, rfl, rfl, rfl, rfl, rfl⟩

theorem sameElements_f {s t : State} (h : sameElements s t) : t.f = s.f := by
  obtain ⟨-, -, -, -, -, hf, -⟩ := h
  exact hf

theorem sameElements_trans {s t u : State} (h : sameElements s t) (h' : sameElements t u) : sameElements s u := by
  rw [withHost_of_sameElements h', withHost_of_sameElements h]
  exact sameElements_withHost s _ _ _ _

/-! ## Setting up -/

/-- R143, R156: RESET leaves an open, empty schedule, whatever the state was; KLOAD then loads and seals it. -/
theorem trialSetup_ready (ks : KeySchedule) (s : State) : ∃ t, trialSetup ks s = some t ∧ Ready ks t := by
  obtain ⟨t, hrun, -, hsealed, hkeys, hf, -⟩ := runLines_kload ks (s := applyReset s) [] rfl rfl rfl
  refine ⟨t, ?_, hf, hsealed, ?_⟩
  · have hreset : runLine ⟨none, .reset, []⟩ ([], s) = some ([], applyReset s) := runLine_unbound rfl rfl rfl
    rw [trialSetup, expandPseudo_kload, Option.bind_some, runLines_cons, hreset, Option.bind_some, hrun]
    rfl
  · exact Vector.ext fun i hi => schedule_getElem_of_some (hkeys ⟨i, hi⟩)

/-! ## One pair -/

theorem runLine_enc {ks : KeySchedule} {s : State} (h : Ready ks s) (n : AsmName) (p : Block) (env : AsmEnv) :
    runLine ⟨some n, .enc, [.lit p.left, .lit p.right]⟩ (env, s)
      = some ((n, ⟨false, pack (trajectory ks p)[10]⟩) :: env, afterEnc p s) := by
  have hrun := runLine_completed (n := n) (op := .enc)
    (mapM_two (operandValue_lit env p.left) (operandValue_lit env p.right)) rfl
    (exec_enc_sealed h.running p.left p.right h.closed) rfl
  rw [h.keys] at hrun
  rw [hrun, afterEnc, h.keys]

theorem afterEnc_ready {ks : KeySchedule} {s : State} (h : Ready ks s) (p : Block) : Ready ks (afterEnc p s) :=
  ⟨h.running, h.closed, h.keys⟩

/-- R105: RDT 9 after an ENC. -/
theorem runLine_rdt_nine {ks : KeySchedule} {s : State} (h : Ready ks s) (n : AsmName) (p : Block) (env : AsmEnv) :
    runLine ⟨some n, .rdt, [.lit 9]⟩ (env, afterEnc p s)
      = some ((n, ⟨false, pack (trajectory ks p)[9]⟩) :: env,
        (afterEnc p s).answer false (pack (trajectory ks p)[9])) := by
  have hentry := exec_rdt_entry (s := afterEnc p s) (n := 9) (j := 9) h.running rfl rfl rfl
  rw [h.keys] at hentry
  exact runLine_completed (mapM_one (operandValue_lit _ 9)) rfl hentry rfl

/-- The names bound for one plaintext: its ciphertext and, with the diagnostic, its entry 9. -/
def encEnv (diag : Bool) (c d : AsmName) (tr : Trajectory) (env : AsmEnv) : AsmEnv :=
  if diag then (d, ⟨false, pack tr[9]⟩) :: (c, ⟨false, pack tr[10]⟩) :: env else (c, ⟨false, pack tr[10]⟩) :: env

/-- R143: the lines for one plaintext, with or without the diagnostic. -/
theorem runLines_enc_diagnostic (diag : Bool) {ks : KeySchedule} {s : State} (h : Ready ks s) (c d : AsmName)
    (p : Block) (env : AsmEnv) :
    ∃ t, runLines (⟨some c, .enc, [.lit p.left, .lit p.right]⟩ :: diagnosticLines diag d) (env, s)
      = some (encEnv diag c d (trajectory ks p) env, t) ∧ Ready ks t := by
  have hready := afterEnc_ready h p
  cases diag with
  | false =>
    refine ⟨afterEnc p s, ?_, hready⟩
    rw [runLines_cons, runLine_enc h, Option.bind_some]
    rfl
  | true =>
    refine ⟨(afterEnc p s).answer false (pack (trajectory ks p)[9]), ?_,
      hready.of_sameElements (sameElements_answer _ _ _)⟩
    rw [diagnosticLines, if_pos rfl, runLines_cons, runLine_enc h, Option.bind_some, runLines_cons,
      runLine_rdt_nine h, Option.bind_some]
    rfl

/-- R143: what the pool keeps of a pair of trajectories. -/
def poolMember (diag : Bool) (tp : TrajectoryPair) : PoolMember :=
  ⟨tp.1[10].right, tp.2[10].right, if diag then some (tp.1[9], tp.2[9]) else none⟩

/-- R133, R143: the names bound by the lines of a pair give its member, if the pair passes the filter. -/
theorem memberOf_encEnv (diag : Bool) (tp : TrajectoryPair) :
    memberOf diag (encEnv diag nameC2 nameD2 tp.2 (encEnv diag nameC1 nameD1 tp.1 []))
      = some (if passesFilter tp then some (poolMember diag tp) else none) := by
  have hd2c2 : nameD2 ≠ nameC2 := by decide
  have hd2c1 : nameD2 ≠ nameC1 := by decide
  have hc2c1 : nameC2 ≠ nameC1 := by decide
  have hd1c1 : nameD1 ≠ nameC1 := by decide
  have hd2d1 : nameD2 ≠ nameD1 := by decide
  have hc2d1 : nameC2 ≠ nameD1 := by decide
  cases diag with
  | false => simp [memberOf, diagnosis, encEnv, blockValue_same, blockValue_other, hc2c1, passesFilter, poolMember]
  | true =>
    simp [memberOf, diagnosis, encEnv, blockValue_same, blockValue_other, hd2c2, hd2c1, hc2c1, hd1c1, hd2d1, hc2d1,
      passesFilter, poolMember]

theorem samplePair_eq (diag : Bool) {ks : KeySchedule} {s : State} (h : Ready ks s) (p : Block) :
    ∃ t, samplePair diag p s = some (if passesFilter (encryptPair ks p) then
      some (poolMember diag (encryptPair ks p)) else none, t) ∧ Ready ks t := by
  obtain ⟨t1, hfirst, h1⟩ := runLines_enc_diagnostic diag h nameC1 nameD1 p []
  obtain ⟨t2, hsecond, h2⟩ := runLines_enc_diagnostic diag h1 nameC2 nameD2 (partner p)
    (encEnv diag nameC1 nameD1 (trajectory ks p) [])
  refine ⟨t2, ?_, h2⟩
  rw [samplePair, pairLines, runLines_append, hfirst, Option.bind_some, hsecond, Option.bind_some]
  exact congrArg (Option.map fun m => (m, t2)) (memberOf_encEnv diag (encryptPair ks p))

/-- R134: the sampling loop keeps the pool of the reference procedure, in its order. -/
theorem samplePairs_eq (diag : Bool) {ks : KeySchedule} (ps : List Block) {s : State} (h : Ready ks s) :
    ∃ t, samplePairs diag ps s = some ((candidatePool ks ps).map (poolMember diag), t) ∧ Ready ks t := by
  induction ps generalizing s with
  | nil => exact ⟨s, rfl, h⟩
  | cons p ps ih =>
    obtain ⟨t1, hpair, h1⟩ := samplePair_eq diag h p
    obtain ⟨t2, hrest, h2⟩ := ih h1
    refine ⟨t2, ?_, h2⟩
    rw [samplePairs, hpair, Option.bind_some, hrest, candidatePool, candidatePool, List.map_cons, List.filter_cons]
    by_cases hpass : passesFilter (encryptPair ks p) = true
    · rw [if_pos hpass, if_pos hpass]
      rfl
    · rw [if_neg hpass, if_neg hpass]
      rfl

/-! ## Ranking -/

/-- R143: the lines of the metric, with SUB expanded. -/
theorem metricLines_eq (n0 n1 key : HalfWord) :
    metricLines n0 n1 key = some (subLines 0 nameA n0 key ++ subLines 2 nameB n1 key ++
      [⟨some nameX, .xor, [.low nameA, .low nameB]⟩, ⟨some nameM, .popc, [.low nameX]⟩]) := by
  rw [metricLines, expandPseudo_sub, expandPseudo_sub]
  rfl

/-- A name bound before a SUB into other names keeps its value. -/
theorem operandValue_subEnv_other {m : Nat} {n n' : AsmName} (hn : n ≠ n') (hm : AsmName.temp m ≠ n')
    (hm' : AsmName.temp (m + 1) ≠ n') (a b : HalfWord) (env : AsmEnv) :
    operandValue (subEnv m n a b env) (.low n') = operandValue env (.low n') := by
  rw [subEnv, operandValue_low_other hn, operandValue_low_other hm', operandValue_low_other hm]

theorem operandValue_subEnv_same (m : Nat) (n : AsmName) (a b : HalfWord) (env : AsmEnv) :
    operandValue (subEnv m n a b env) (.low n) = some (sub16 a b) :=
  operandValue_low_zext32 _ _ _

/-- R143: the metric computed by the ALU commands. -/
theorem metricByCommands_eq (n0 n1 key : HalfWord) {s : State} (hf : s.f = false) :
    ∃ t, metricByCommands n0 n1 key s = some (metric n0 n1 key, t) ∧ sameElements s t := by
  obtain ⟨t1, hrunA, hs1⟩ := runLines_sub hf 0 nameA n0 key []
  have hf1 : t1.f = false := (sameElements_f hs1).trans hf
  obtain ⟨t2, hrunB, hs2⟩ := runLines_sub hf1 2 nameB n1 key (subEnv 0 nameA n0 key [])
  have hf2 : t2.f = false := (sameElements_f hs2).trans hf1
  have hA : operandValue (subEnv 2 nameB n1 key (subEnv 0 nameA n0 key [])) (.low nameA) = some (sub16 n0 key) :=
    (operandValue_subEnv_other (by decide) (by decide) (by decide) _ _ _).trans (operandValue_subEnv_same _ _ _ _ _)
  have hxor := runLine_xor hf2 nameX hA (operandValue_subEnv_same 2 nameB n1 key _)
  let t3 := t2.answer false (zext32 (xor16 (sub16 n0 key) (sub16 n1 key)))
  have hpopc := runLine_popc (s := t3) hf2 nameM
    (operandValue_low_zext32 nameX (xor16 (sub16 n0 key) (sub16 n1 key))
      (subEnv 2 nameB n1 key (subEnv 0 nameA n0 key [])))
  refine ⟨t3.answer false (zext32 (countHalf (xor16 (sub16 n0 key) (sub16 n1 key)))), ?_,
    sameElements_trans (sameElements_trans hs1 hs2)
      (sameElements_trans (sameElements_answer t2 _ _) (sameElements_answer t3 _ _))⟩
  rw [metricByCommands, metricLines_eq, Option.bind_some, runLines_append, runLines_append, hrunA, Option.bind_some,
    hrunB, Option.bind_some, runLines_cons, hxor, Option.bind_some, runLines_cons, hpopc, Option.bind_some,
    runLines_nil, Option.bind_some, operandValue_low_zext32, Option.map_some, countHalf_toNat, metric]

theorem weightByCommands_eq (diag : Bool) (key : HalfWord) (pool : List TrajectoryPair) {s : State}
    (hf : s.f = false) :
    ∃ t, weightByCommands key (pool.map (poolMember diag)) s = some (keyWeight pool key, t) ∧ sameElements s t := by
  induction pool generalizing s with
  | nil => exact ⟨s, by rw [keyWeight_empty]; rfl, sameElements_refl s⟩
  | cons tp pool ih =>
    obtain ⟨t1, hmetric, h1⟩ := metricByCommands_eq tp.1[10].right tp.2[10].right key hf
    have hf1 : t1.f = false := (sameElements_f h1).trans hf
    obtain ⟨t2, hrest, h2⟩ := ih hf1
    refine ⟨t2, ?_, sameElements_trans h1 h2⟩
    rw [List.map_cons, weightByCommands]
    simp only [poolMember] at hrest ⊢
    rw [hmetric, Option.bind_some, hrest]
    rfl

theorem weightTable_eq (diag : Bool) (pool : List TrajectoryPair) (keys : List HalfWord) {s : State}
    (hf : s.f = false) :
    ∃ t, weightTable (pool.map (poolMember diag)) keys s = some (keys.map (keyWeight pool), t) ∧ sameElements s t := by
  induction keys generalizing s with
  | nil => exact ⟨s, rfl, sameElements_refl s⟩
  | cons key keys ih =>
    obtain ⟨t1, hweight, h1⟩ := weightByCommands_eq diag key pool hf
    have hf1 : t1.f = false := (sameElements_f h1).trans hf
    obtain ⟨t2, hrest, h2⟩ := ih hf1
    refine ⟨t2, ?_, sameElements_trans h1 h2⟩
    rw [weightTable, hweight, Option.bind_some, hrest]
    rfl

/-- R136: the table over all keys has each key's weight at its place. -/
theorem allKeys_map_getD (weight : HalfWord → Nat) (key : HalfWord) :
    ((allKeys.map weight)[key.toNat]?).getD 0 = weight key := by
  have hlt : key.toNat < lastKey + 1 := Nat.lt_succ_of_le (toNat_le_lastKey key)
  rw [allKeys, List.getElem?_map, List.getElem?_map, List.getElem?_range hlt, Option.map_some, Option.map_some,
    Option.getD_some, BitVec.ofNat_toNat, BitVec.setWidth_eq]

/-! ## The trial -/

/-- R135, R143: with the diagnostic the members tell the right pairs. -/
theorem countP_isRight (pool : List TrajectoryPair) :
    (pool.map (poolMember true)).countP PoolMember.isRight = pool.countP isRightPair := by
  rw [List.countP_map]
  rfl

/-- The report of a trial. -/
def trialReportOf (diag : Bool) (pool : List TrajectoryPair) : RecoveryReport :=
  reportOf (pool.map (poolMember diag)).length
    (if diag then some ((pool.map (poolMember diag)).countP PoolMember.isRight) else none) (keyWeight pool)

theorem trialByCommands_eq (diag : Bool) (ks : KeySchedule) (ps : List Block) (s : State) :
    ∃ t, trialByCommands diag ks ps s = some (trialReportOf diag (candidatePool ks ps), t) ∧ Ready ks t := by
  obtain ⟨t1, hsetup, h1⟩ := trialSetup_ready ks s
  obtain ⟨t2, hpool, h2⟩ := samplePairs_eq diag ps h1
  obtain ⟨t3, htable, h3⟩ := weightTable_eq diag (candidatePool ks ps) allKeys h2.running
  refine ⟨t3, ?_, h2.of_sameElements h3⟩
  rw [trialByCommands, hsetup, Option.bind_some, hpool, Option.bind_some, htable, Option.map_some]
  simp only [allKeys_map_getD]
  rfl

/-- Settles O57: set up, sampled and ranked as in the lemmas above, the trial reports what `reportOf` makes of the
reference procedure's pool. -/
theorem trialByCommandsIsTheReference : Obligations.TrialByCommandsIsTheReference := by
  intro diag ks ps s
  obtain ⟨t, htrial, hready⟩ := trialByCommands_eq diag ks ps s
  refine ⟨_, t, htrial, hready.running, hready.closed, rfl, ?_, ?_, ?_⟩
  · rw [trialReportOf, List.length_map]
    rfl
  · rintro rfl
    rw [trialReportOf, countP_isRight, List.length_map]
    rfl
  · rintro rfl
    rfl

end Sys2Proof.Machine
